-- ==== Sys2Proof/Word.lean ====
section
/-! DEFINITION. The quantities of the block (spec/00_scope.md R6, R11): bytes, 32-bit words, 64-bit counts, and the
fixed-length sequences of them that registers and operands hold. All are unsigned. -/

namespace Sys2Proof

/-- A byte is 8 bits (R6). -/
abbrev Byte := BitVec 8

/-- A state word, and a command header, is 32 bits (R6, R92). -/
abbrev Word := BitVec 32

/-- The byte counter and the other 64-bit unsigned registers (R6). -/
abbrev U64 := BitVec 64

/-- Eight 32-bit words: the running state, R21. Index `i` is `H[i]`. -/
abbrev HState := Vector Word 8

/-- Thirty-two bytes: a digest, or the serialization of a state (R6). -/
abbrev Bytes32 := Vector Byte 32

/-- Sixty-four bytes: the unit the Compression Core consumes (R6). -/
abbrev Block := Vector Byte 64

end Sys2Proof
end

