-- ==== Sys2Proof/Machine/Bytes.lean ====
section
/-! DEFINITION. Byte order and byte sequences (spec/00_scope.md R11, spec/20_memory.md R61, R64 to R66): every multi-byte
quantity is big-endian, most significant byte first. -/

namespace Sys2Proof.Machine

/-- `be32(b0,b1,b2,b3)`: first byte most significant (R11). -/
def be32 (b0 b1 b2 b3 : Byte) : Word := b0 ++ b1 ++ b2 ++ b3

/-- `bytes_be32(w)`: the bytes `w[31:24], w[23:16], w[15:8], w[7:0]` (R11). -/
def bytesBe32 (w : Word) : List Byte :=
  [w.extractLsb' 24 8, w.extractLsb' 16 8, w.extractLsb' 8 8, w.extractLsb' 0 8]

/-- `bytes_be16(v)`: the two bytes of a 16-bit integer, most significant first (R11, R70). -/
def bytesBe16 (v : BitVec 16) : List Byte := [v.extractLsb' 8 8, v.extractLsb' 0 8]

/-- `bytes_be64(n)`: the eight bytes of a 64-bit integer, most significant first (R11, R70). -/
def bytesBe64 (n : U64) : List Byte :=
  [n.extractLsb' 56 8, n.extractLsb' 48 8, n.extractLsb' 40 8, n.extractLsb' 32 8,
   n.extractLsb' 24 8, n.extractLsb' 16 8, n.extractLsb' 8 8, n.extractLsb' 0 8]

/-- `be64(s)`, the inverse of `bytes_be64` on an eight-byte sequence (R11): each further byte goes below the last. -/
def be64 (s : List Byte) : U64 := s.foldl (fun acc b => (acc <<< 8) ||| b.setWidth 64) 0

/-- The 32 bytes of a 32-byte sequence (log entry 8; DEDUCED, safe: every use has 32 bytes, the padding byte is never
read). -/
def bytes32 (l : List Byte) : Bytes32 := Vector.ofFn fun i => l.getD i.val 0

/-- The block made of a 64-byte sequence (log entry 8; DEDUCED, safe: every use has 64 bytes). -/
def block (l : List Byte) : Block := Vector.ofFn fun i => l.getD i.val 0

/-- `SER(S)`: byte `4i + j` is `S[i][31-8j : 24-8j]` (R65). -/
def ser (S : HState) : Bytes32 :=
  bytes32 (bytesBe32 S[0] ++ bytesBe32 S[1] ++ bytesBe32 S[2] ++ bytesBe32 S[3] ++
    bytesBe32 S[4] ++ bytesBe32 S[5] ++ bytesBe32 S[6] ++ bytesBe32 S[7])

/-- `DESER(b)`: word `i` is `be32(b[4i], b[4i+1], b[4i+2], b[4i+3])` (R66). -/
def deser (b : Bytes32) : HState :=
  Vector.ofFn fun i => be32 b[4 * i.val] b[4 * i.val + 1] b[4 * i.val + 2] b[4 * i.val + 3]

/-- `MemRead(space, addr, n)` on the bytes a space holds: lowest address first (R61). -/
def memRead (mem : List Byte) (addr n : Nat) : List Byte := (mem.drop addr).take n

/-- `MemWrite(space, addr, n, v)` with `n = |v|` on the bytes a space holds (R61). At `addr = |mem|`, the first location
that holds no value, the written bytes become the next that do (R25, R32). -/
def memWrite (mem : List Byte) (addr : Nat) (v : List Byte) : List Byte :=
  mem.take addr ++ v ++ mem.drop (addr + v.length)

end Sys2Proof.Machine
end

