-- ==== Sys2Proof/Machine/Compress.lean ====
section
/-! DEFINITION. The Compression Core (spec/40_compress.md R130 to R142): a pure total function of a state and a block, on
unsigned 32-bit words with addition modulo 2^32. It reads no machine state (R142). The functions are the spec's, which
marks them as general knowledge (GK3 to GK7; log entry 9: PRESUMED by the spec, unsafe were one wrong). -/

namespace Sys2Proof.Machine

/-- `ROTR^n(x)`, right rotation by `0 < n < 32` (R11). -/
def rotr (n : Nat) (x : Word) : Word := (x >>> n) ||| (x <<< (32 - n))

/-- `SHR^n(x)`, logical right shift (R11). -/
def shr (n : Nat) (x : Word) : Word := x >>> n

/-- Choice (R131). -/
def ch (x y z : Word) : Word := (x &&& y) ^^^ (~~~x &&& z)

/-- Majority (R132). -/
def maj (x y z : Word) : Word := (x &&& y) ^^^ (x &&& z) ^^^ (y &&& z)

/-- `Σ0` (R133). -/
def bigSigma0 (x : Word) : Word := rotr 2 x ^^^ rotr 13 x ^^^ rotr 22 x

/-- `Σ1` (R134). -/
def bigSigma1 (x : Word) : Word := rotr 6 x ^^^ rotr 11 x ^^^ rotr 25 x

/-- `σ0` (R135); the third term is a shift. -/
def smallSigma0 (x : Word) : Word := rotr 7 x ^^^ rotr 18 x ^^^ shr 3 x

/-- `σ1` (R136); the third term is a shift. -/
def smallSigma1 (x : Word) : Word := rotr 17 x ^^^ rotr 19 x ^^^ shr 10 x

/-- `M[t]`, `0 ≤ t ≤ 15`: word `t` of a block, big-endian (R67). -/
def blockWord (B : Block) (t : Fin 16) : Word :=
  be32 B[4 * t.val] B[4 * t.val + 1] B[4 * t.val + 2] B[4 * t.val + 3]

/-- `W[0..15]`, the block's own words (R137). -/
def blockWords (B : Block) : List Word := (List.finRange 16).map (blockWord B)

/-- `W[t]`, `t ≥ 16`, from the words before it, newest first: `W[t-2]` stands at index 1, `W[t-7]` at 6, `W[t-15]` at 14
and `W[t-16]` at 15 (R137). At least 16 words are there at every use, so the default is never read. -/
def nextWord (earlier : List Word) : Word :=
  smallSigma1 (earlier.getD 1 0) + earlier.getD 6 0 + smallSigma0 (earlier.getD 14 0) + earlier.getD 15 0

/-- `n` further words of the schedule put before the earlier ones, newest first (R137). -/
def extendSchedule : Nat → List Word → List Word
  | 0, ws => ws
  | n + 1, ws => extendSchedule n (nextWord ws :: ws)

/-- The message schedule `W[0..63]` of a block (R137). -/
def schedule (B : Block) : List Word := (extendSchedule 48 (blockWords B).reverse).reverse

/-- The eight working variables (R31, R138); they live inside one evaluation of `compress` only. -/
structure Working where
  a : Word
  b : Word
  c : Word
  d : Word
  e : Word
  f : Word
  g : Word
  h : Word
  deriving DecidableEq, Repr

/-- The working variables start as the incoming state (R138). -/
def Working.ofState (S : HState) : Working := ⟨S[0], S[1], S[2], S[3], S[4], S[5], S[6], S[7]⟩

/-- One round with round constant `k = K[t]` and schedule word `w = W[t]`; the assignments are simultaneous (R139). -/
def compressRound (v : Working) (k w : Word) : Working :=
  let t1 := v.h + bigSigma1 v.e + ch v.e v.f v.g + k + w
  let t2 := bigSigma0 v.a + maj v.a v.b v.c
  { a := t1 + t2, b := v.a, c := v.b, d := v.c, e := v.d + t1, f := v.e, g := v.f, h := v.g }

/-- The 64 rounds, `t = 0, 1, …, 63` in order (R139). -/
def compressRounds (v : Working) (W : List Word) : Working :=
  (kRom.zip W).foldl (fun v kw => compressRound v kw.1 kw.2) v

/-- `COMPRESS(S, B)` (R140): the rounds, then word-wise addition into the incoming state. -/
def compress (S : HState) (B : Block) : HState :=
  let v := compressRounds (Working.ofState S) (schedule B)
  #v[S[0] + v.a, S[1] + v.b, S[2] + v.c, S[3] + v.d, S[4] + v.e, S[5] + v.f, S[6] + v.g, S[7] + v.h]

end Sys2Proof.Machine
end

