-- ==== Sys2Proof/Syntax.lean ====
section
/-! DEFINITION. The decoded commands (spec/30_encoding.md R97), one constructor for each of the 18 rows of the opcode
table (R96), and their mnemonics. A header that matches no row is no command: the decoder reports it by name. -/

namespace Sys2Proof

/-- The `case` operand of the encoder's write commands (R94, R97): which digit table renders the byte. -/
inductive Case where
  | lower
  | upper
  deriving DecidableEq, Repr

/-- One command with its operands extracted (R97), in the order of the opcode table. -/
inductive Instr where
  /-- SSTAT, read the status (R240). -/
  | sstat
  /-- ENEW, create an engine (R161). -/
  | enew
  /-- EFROMMS, create an engine from the midstate register (R162). -/
  | efromms
  /-- EINPUT, submit bytes to the engine (R163). -/
  | einput (bytes : List Byte)
  /-- ECANX, can a midstate be extracted (R166). -/
  | ecanx
  /-- EMID, extract the midstate (R167). -/
  | emid
  /-- EFINAL, pad, compress, serialize and consume the engine (R170). -/
  | efinal
  /-- MNEW, build a midstate from its parts (R190). -/
  | mnew (bytes : Bytes32) (n : U64)
  /-- MPARTS, return the two parts of the midstate (R193). -/
  | mparts
  /-- MTAG, build the midstate of a tagged hash (R195). -/
  | mtag (tag : List Byte)
  /-- DREAD, read the digest register (R242). -/
  | dread
  /-- XNEW, create the encoder (R214). -/
  | xnew
  /-- XPUTB, encode one byte (R212). -/
  | xputb (byte : Byte) (c : Case)
  /-- XPUTN, encode a byte sequence (R215). -/
  | xputn (bytes : List Byte) (c : Case)
  /-- XFULL, is the encoder full (R218). -/
  | xfull
  /-- XSTR, the text written so far (R219). -/
  | xstr
  /-- XCLEAR, empty the encoder (R224). -/
  | xclear
  /-- XPUTD, encode the digest register (R217). -/
  | xputd (c : Case)
  deriving DecidableEq, Repr

/-- The mnemonic of R96, as the opcode table spells it. -/
def Instr.mnemonic : Instr → String
  | .sstat => "SSTAT"
  | .enew => "ENEW"
  | .efromms => "EFROMMS"
  | .einput _ => "EINPUT"
  | .ecanx => "ECANX"
  | .emid => "EMID"
  | .efinal => "EFINAL"
  | .mnew _ _ => "MNEW"
  | .mparts => "MPARTS"
  | .mtag _ => "MTAG"
  | .dread => "DREAD"
  | .xnew => "XNEW"
  | .xputb _ _ => "XPUTB"
  | .xputn _ _ => "XPUTN"
  | .xfull => "XFULL"
  | .xstr => "XSTR"
  | .xclear => "XCLEAR"
  | .xputd _ => "XPUTD"

end Sys2Proof
end

