-- ==== Sys2Proof/WellFormed.lean ====
section
/-! DEFINITION. Which commands a packet can carry: a variable payload has at most 65535 bytes (spec/30_encoding.md R93,
R97). The 32 bytes of MNEW, the 64-bit count, the byte and the case are bounded by their types. -/

namespace Sys2Proof

/-- The largest payload of one packet: `arg` is a 16-bit length (R93). -/
def maxPayload : Nat := 65535

/-- The operands fit the packet's fields (R93, R94, R97). -/
def Instr.wellFormed : Instr → Bool
  | .sstat => true
  | .enew => true
  | .efromms => true
  | .einput bytes => decide (bytes.length ≤ maxPayload)
  | .ecanx => true
  | .emid => true
  | .efinal => true
  | .mnew _ _ => true
  | .mparts => true
  | .mtag tag => decide (tag.length ≤ maxPayload)
  | .dread => true
  | .xnew => true
  | .xputb _ _ => true
  | .xputn bytes _ => decide (bytes.length ≤ maxPayload)
  | .xfull => true
  | .xstr => true
  | .xclear => true
  | .xputd _ => true

/-- The command is one that a packet can carry. -/
abbrev Instr.WellFormed (i : Instr) : Prop := i.wellFormed = true

end Sys2Proof
end

