-- ==== Sys2Proof/Decode.lean ====
section
/-! DEFINITION. Framing, decoding and encoding of command packets (spec/30_encoding.md R90 to R99). Decoding is total on any
byte sequence: the first packet is incomplete, or carries an illegal header (reported by name, its payload consumed), or
is a command. The encoder follows the same tables. -/

namespace Sys2Proof

open Sys2Proof.Machine

/-- The 18 opcodes (R96), in the order of the opcode table. -/
inductive Opcode where
  | sstat | enew | efromms | einput | ecanx | emid | efinal
  | mnew | mparts | mtag | dread
  | xnew | xputb | xputn | xfull | xstr | xclear | xputd
  deriving DecidableEq, Repr

/-- Every opcode once. -/
def Opcode.all : List Opcode :=
  [.sstat, .enew, .efromms, .einput, .ecanx, .emid, .efinal, .mnew, .mparts, .mtag, .dread,
   .xnew, .xputb, .xputn, .xfull, .xstr, .xclear, .xputd]

/-- The value of the field `op` (R96). -/
def Opcode.code : Opcode → Byte
  | .sstat => 0x01
  | .enew => 0x10
  | .efromms => 0x11
  | .einput => 0x12
  | .ecanx => 0x13
  | .emid => 0x14
  | .efinal => 0x15
  | .mnew => 0x20
  | .mparts => 0x21
  | .mtag => 0x22
  | .dread => 0x30
  | .xnew => 0x40
  | .xputb => 0x41
  | .xputn => 0x42
  | .xfull => 0x43
  | .xstr => 0x44
  | .xclear => 0x45
  | .xputd => 0x46

/-- The opcode a value of `op` names; `none` for the 238 undefined values (R98 a). -/
def Opcode.ofCode (b : Byte) : Option Opcode := Opcode.all.find? fun o => o.code == b

/-- The three packet formats (R93): no payload, 40 bytes, `arg` bytes. -/
inductive Format where
  | N
  | F
  | V
  deriving DecidableEq, Repr

/-- The format of each command (R93). -/
def Opcode.format : Opcode → Format
  | .mnew => .F
  | .einput | .mtag | .xputn => .V
  | .sstat | .enew | .efromms | .ecanx | .emid | .efinal | .mparts | .dread
  | .xnew | .xputb | .xfull | .xstr | .xclear | .xputd => .N

/-- The three commands with a `case` operand (R94). -/
def Opcode.hasCase : Opcode → Bool
  | .xputb | .xputn | .xputd => true
  | .sstat | .enew | .efromms | .einput | .ecanx | .emid | .efinal | .mnew | .mparts | .mtag | .dread
  | .xnew | .xfull | .xstr | .xclear => false

/-- `op = hdr[31:24]` (R92). -/
def hdrOp (hdr : Word) : Byte := hdr.extractLsb' 24 8

/-- `rsv = hdr[23:17]` (R92). -/
def hdrRsv (hdr : Word) : BitVec 7 := hdr.extractLsb' 17 7

/-- `c = hdr[16]` (R92). -/
def hdrC (hdr : Word) : Bool := hdr.getLsbD 16

/-- `arg = hdr[15:0]` (R92). -/
def hdrArg (hdr : Word) : BitVec 16 := hdr.extractLsb' 0 16

/-- `c = 0` selects lower, `c = 1` upper (R92, R94). -/
def caseOfBit (c : Bool) : Case := if c then .upper else .lower

/-- The bit `c` of a case (R92). -/
def bitOfCase : Case → Bool
  | .lower => false
  | .upper => true

/-- The payload length a header announces, from `op` and `arg` alone, whether or not the header is legal (R95). -/
def paylen (hdr : Word) : Nat :=
  if hdrOp hdr = 0x12 ∨ hdrOp hdr = 0x22 ∨ hdrOp hdr = 0x42 then (hdrArg hdr).toNat
  else if hdrOp hdr = 0x20 then 40
  else 0

/-- Why a header is illegal: the five conditions of R98. Which of them is named when several hold is the model's own
choice (log entry 10; DESIGN CHOICE, safe: the fault of R253 does not tell them apart). -/
inductive Illegal where
  /-- (a) `op` is not one of the 18 opcodes. -/
  | undefinedOpcode
  /-- (b) `rsv ≠ 0`. -/
  | reservedSet
  /-- (c) `c = 1` and the command has no case operand. -/
  | caseSet
  /-- (d) `arg ≠ 0` and the command is neither format `V` nor XPUTB. -/
  | argSet
  /-- (e) XPUTB and `arg[15:8] ≠ 0`. -/
  | byteTooWide
  deriving DecidableEq, Repr

/-- The opcode of a legal header, or why the header is illegal (R98). -/
def checkHeader (hdr : Word) : Except Illegal Opcode :=
  match Opcode.ofCode (hdrOp hdr) with
  | none => .error .undefinedOpcode
  | some o =>
    if hdrRsv hdr ≠ 0 then .error .reservedSet
    else if hdrC hdr = true ∧ o.hasCase = false then .error .caseSet
    else if hdrArg hdr ≠ 0 ∧ o.format ≠ .V ∧ o ≠ .xputb then .error .argSet
    else if o = .xputb ∧ (hdrArg hdr).extractLsb' 8 8 ≠ 0 then .error .byteTooWide
    else .ok o

/-- Operand assembly of a legal header and its payload (R94). -/
def assemble (o : Opcode) (hdr : Word) (payload : List Byte) : Instr :=
  match o with
  | .sstat => .sstat
  | .enew => .enew
  | .efromms => .efromms
  | .einput => .einput payload
  | .ecanx => .ecanx
  | .emid => .emid
  | .efinal => .efinal
  | .mnew => .mnew (bytes32 (memRead payload 0 32)) (be64 (memRead payload 32 8))
  | .mparts => .mparts
  | .mtag => .mtag payload
  | .dread => .dread
  | .xnew => .xnew
  | .xputb => .xputb ((hdrArg hdr).extractLsb' 0 8) (caseOfBit (hdrC hdr))
  | .xputn => .xputn payload (caseOfBit (hdrC hdr))
  | .xfull => .xfull
  | .xstr => .xstr
  | .xclear => .xclear
  | .xputd => .xputd (caseOfBit (hdrC hdr))

/-- What the front of a command stream is: not yet a whole packet (R95), or a packet with the bytes that follow it. -/
inductive Decoded where
  /-- Fewer than four bytes, or fewer payload bytes than the header announces: no command yet (R95). -/
  | incomplete
  /-- A whole packet whose header matches no row (R98), named; its payload is consumed (R253). -/
  | illegal (hdr : Word) (why : Illegal) (rest : List Byte)
  /-- A whole packet that is a command (R97). -/
  | packet (i : Instr) (rest : List Byte)
  deriving DecidableEq, Repr

/-- Decode the payload and what follows, once the header is read (R95, R97). -/
def decodeBody (hdr : Word) (body : List Byte) : Decoded :=
  if body.length < paylen hdr then .incomplete
  else
    match checkHeader hdr with
    | .error why => .illegal hdr why (body.drop (paylen hdr))
    | .ok o => .packet (assemble o hdr (body.take (paylen hdr))) (body.drop (paylen hdr))

/-- Cut the first packet off a command stream and decode it (R90, R92, R95). -/
def decode : List Byte → Decoded
  | b0 :: b1 :: b2 :: b3 :: body => decodeBody (be32 b0 b1 b2 b3) body
  | _ => .incomplete

/-- The opcode of a command (R96). -/
def Instr.opcode : Instr → Opcode
  | .sstat => .sstat
  | .enew => .enew
  | .efromms => .efromms
  | .einput _ => .einput
  | .ecanx => .ecanx
  | .emid => .emid
  | .efinal => .efinal
  | .mnew _ _ => .mnew
  | .mparts => .mparts
  | .mtag _ => .mtag
  | .dread => .dread
  | .xnew => .xnew
  | .xputb _ _ => .xputb
  | .xputn _ _ => .xputn
  | .xfull => .xfull
  | .xstr => .xstr
  | .xclear => .xclear
  | .xputd _ => .xputd

/-- The bit `c` of a command's header: its case, 0 where it has none (R94). -/
def Instr.caseBit : Instr → Bool
  | .xputb _ c | .xputn _ c | .xputd c => bitOfCase c
  | .sstat | .enew | .efromms | .einput _ | .ecanx | .emid | .efinal | .mnew _ _ | .mparts | .mtag _ | .dread
  | .xnew | .xfull | .xstr | .xclear => false

/-- The field `arg` of a command's header: the payload length of format `V`, XPUTB's byte, 0 otherwise (R94). -/
def Instr.arg : Instr → BitVec 16
  | .einput bytes | .mtag bytes | .xputn bytes _ => BitVec.ofNat 16 bytes.length
  | .xputb byte _ => byte.setWidth 16
  | .sstat | .enew | .efromms | .ecanx | .emid | .efinal | .mnew _ _ | .mparts | .dread
  | .xnew | .xfull | .xstr | .xclear | .xputd _ => 0

/-- A command's payload (R93). -/
def Instr.payload : Instr → List Byte
  | .einput bytes | .mtag bytes | .xputn bytes _ => bytes
  | .mnew bytes n => bytes.toList ++ bytesBe64 n
  | .sstat | .enew | .efromms | .ecanx | .emid | .efinal | .mparts | .dread
  | .xnew | .xputb _ _ | .xfull | .xstr | .xclear | .xputd _ => []

/-- A header from its fields, the reserved bits 0 (R92, R97). -/
def mkHeader (op : Byte) (c : Bool) (arg : BitVec 16) : Word := op ++ 0#7 ++ BitVec.ofBool c ++ arg

/-- The header of a command (R92, R97). -/
def Instr.header (i : Instr) : Word := mkHeader i.opcode.code i.caseBit i.arg

/-- The one packet of a command (R97): its header, most significant byte first, and its payload. -/
def encode (i : Instr) : List Byte := bytesBe32 i.header ++ i.payload

/-- One row of the opcode map: `hdr` selects it when `hdr ∧ mask = pattern` (R96, where the pattern is called match). -/
structure OpRow where
  mnemonic : String
  pattern : Word
  mask : Word
  deriving DecidableEq, Repr

/-- A header selects the row (R96). -/
def OpRow.selects (r : OpRow) (hdr : Word) : Bool := hdr &&& r.mask == r.pattern

/-- The opcode map of R96, as the spec prints it; the decoder above is written from R94 and R98 instead. -/
def opTable : List OpRow :=
  [⟨"SSTAT", 0x01000000, 0xFFFFFFFF⟩, ⟨"ENEW", 0x10000000, 0xFFFFFFFF⟩, ⟨"EFROMMS", 0x11000000, 0xFFFFFFFF⟩,
   ⟨"EINPUT", 0x12000000, 0xFFFF0000⟩, ⟨"ECANX", 0x13000000, 0xFFFFFFFF⟩, ⟨"EMID", 0x14000000, 0xFFFFFFFF⟩] ++
  [⟨"EFINAL", 0x15000000, 0xFFFFFFFF⟩, ⟨"MNEW", 0x20000000, 0xFFFFFFFF⟩, ⟨"MPARTS", 0x21000000, 0xFFFFFFFF⟩,
   ⟨"MTAG", 0x22000000, 0xFFFF0000⟩, ⟨"DREAD", 0x30000000, 0xFFFFFFFF⟩, ⟨"XNEW", 0x40000000, 0xFFFFFFFF⟩] ++
  [⟨"XPUTB", 0x41000000, 0xFFFEFF00⟩, ⟨"XPUTN", 0x42000000, 0xFFFE0000⟩, ⟨"XFULL", 0x43000000, 0xFFFFFFFF⟩,
   ⟨"XSTR", 0x44000000, 0xFFFFFFFF⟩, ⟨"XCLEAR", 0x45000000, 0xFFFFFFFF⟩, ⟨"XPUTD", 0x46000000, 0xFFFEFFFF⟩]

/-- The packet whose bits are `w`, numbered as the opcode table numbers them: bits 31..0 are the header, sent most
significant byte first (R92), and payload byte `j` is bits `39+8j .. 32+8j`; bits from `nbits` up are 0 (log entry 7). -/
def packetOfTableWord (nbits w : Nat) : List Byte :=
  let v := w % 2 ^ nbits
  let hdr : Word := BitVec.ofNat 32 v
  bytesBe32 hdr ++ (List.range (paylen hdr)).map fun j => BitVec.ofNat 8 (v >>> (32 + 8 * j))

/-- The command the decoder reads from the packet whose bits are `w`, `none` where it finds no command. -/
def decodeTableWord (nbits w : Nat) : Option Instr :=
  match decode (packetOfTableWord nbits w) with
  | .packet i _ => some i
  | .illegal _ _ _ => none
  | .incomplete => none

end Sys2Proof
end

