-- ==== Sys2Proof/Config.lean ====
section
/-! DEFINITION. What an instance fixes: the encoder's capacity `CAP` (spec/00_scope.md R7, spec/43_hexenc.md R222), the
one parameter of the block. The allow-list `CAPS` is OPEN (D12): every even capacity from 2 to 65534 is admitted. -/

namespace Sys2Proof

/-- A capacity `CAP`: even, `2 ≤ CAP ≤ 65534` (R7), which the type guarantees by holding `CAP / 2 - 1`. R7's check
that the instance's capacity is allowed is made here, when the value is built, and never while the block runs. -/
structure Cap where
  half : Fin 32767
  deriving DecidableEq, Repr

/-- `CAP` itself, in bytes (text characters). -/
def Cap.size (c : Cap) : Nat := 2 * (c.half.val + 1)

/-- The instance's `CAP` as a parameter (D12, log entry 1; DESIGN CHOICE, safe): nothing in Lean can tell which
even number from 2 to 65534 it is. -/
opaque Config.capHalf : Fin 32767

/-- The capacity of the instance that `State.reset` describes. -/
def Config.cap : Cap := ⟨Config.capHalf⟩

end Sys2Proof
end

