-- ==== Sys2Proof/Machine/State.lean ====
section
/-! DEFINITION. The architectural state (spec/10_state.md R20) as plain data, and its value after reset (R41). An object that
does not exist holds no value (R23, R39): each of the four is an option, and its valid bit is the option's tag (log
entry 2; DESIGN CHOICE, safe: the spec asks for it). -/

namespace Sys2Proof.Machine

/-- The Hash Engine's registers and buffer (R20, R21, R25, R26). -/
structure Engine where
  /-- `H[0..7]`. -/
  h : HState
  /-- `BUF[0..fill)`, oldest byte first; the bytes beyond hold no value (R25, log entry 3). -/
  buf : List Byte
  /-- `N`, the bytes submitted. -/
  n : U64
  deriving DecidableEq, Repr

/-- The midstate register (R29). -/
structure Midstate where
  /-- `MB[0..31]`. -/
  mb : Bytes32
  /-- `MN`. -/
  mn : U64
  deriving DecidableEq, Repr

/-- The encoder (R32): `XBUF[0..POS)`; the bytes beyond hold no value (log entry 3). -/
structure Encoder where
  xbuf : List Byte
  deriving DecidableEq, Repr

/-- The four values of a response's status (spec/30_encoding.md R105). -/
inductive Status where
  | ok
  | errBoundary
  | fault
  | halted
  deriving DecidableEq, Repr

/-- One response packet (R104). -/
structure Response where
  status : Status
  payload : List Byte
  deriving DecidableEq, Repr

/-- The machine. -/
structure State where
  /-- `H`, `BUF`, `N`; `some` exactly when `EV = 1` (R23, R28). -/
  engine : Option Engine
  /-- `MB`, `MN`; `some` exactly when `MV = 1` (R29). -/
  midstate : Option Midstate
  /-- `DG`; `some` exactly when `DV = 1` (R30). -/
  digest : Option Bytes32
  /-- `XBUF`, `POS`; `some` exactly when `XV = 1` (R32, R33). -/
  encoder : Option Encoder
  /-- `HALT` (R34). -/
  halt : Bool
  /-- `FCODE` (R36). -/
  fcode : Byte
  /-- `FINFO` (R37). -/
  finfo : U64
  /-- The instance's `CAP`: a constant that no command writes (R7, R38; log entry 1). -/
  cap : Cap
  /-- The command stream: the bytes sent and not yet consumed, first byte first (R90; log entry 6). -/
  cmd : List Byte
  /-- The response stream: the packets answered and not yet taken, oldest first (R91; log entry 6). -/
  rsp : List Response
  deriving DecidableEq, Repr

/-- The state after reset (R41, R290): nothing exists, nothing has faulted, both streams are empty. -/
def State.reset : State where
  engine := none
  midstate := none
  digest := none
  encoder := none
  halt := false
  fcode := 0
  finfo := 0
  cap := Config.cap
  cmd := []
  rsp := []

/-- The five faults (spec/60_exceptions.md R250). Taking one is a next state (R258), not a stop of the model. -/
inductive FaultCode where
  | illegal
  | noObj
  | msAlign
  | capacity
  | length
  deriving DecidableEq, Repr

/-- The objects a command can need, for the information word of `F_NOOBJ` (R251). -/
inductive Object where
  | engine
  | midstate
  | digest
  | encoder
  deriving DecidableEq, Repr

/-- Why a step has no next state. -/
inductive Fault where
  /-- Raised by `step` alone, when the command stream holds no whole packet: the block waits inside the packet, and only
  the host can lift that by sending more bytes (R95, R306, U8). A stuck state; no command raises it. Safe: nothing happens
  in the block either (log entry 5). -/
  | awaitingPacket
  deriving DecidableEq, Repr

/-- Why a command has no meaning. -/
inductive Refusal where
  /-- Raised by `exec` alone, for a command of the table that the model gave no meaning. No arm of `exec` raises it now. Safe:
  nothing is claimed of such a command. -/
  | notModelled (mnemonic : String)
  deriving DecidableEq, Repr

/-- What executing a command answers. -/
abbrev Result := Host.Outcome State Fault Refusal

end Sys2Proof.Machine
end

