-- ==== Sys2Proof/Machine/Flags.lean ====
section
/-! DEFINITION. The valid bits, the predicates and the status register (spec/10_state.md R27, R33 to R35). The block has no
arithmetic flags (R34, spec/40_compress.md R130). -/

namespace Sys2Proof.Machine

/-- `EV`: an engine exists and has not been finalized (R28). -/
def State.ev (s : State) : Bool := s.engine.isSome

/-- `MV`: the midstate register holds a midstate (R29). -/
def State.mv (s : State) : Bool := s.midstate.isSome

/-- `DV`: the digest register holds a digest (R30). -/
def State.dv (s : State) : Bool := s.digest.isSome

/-- `XV`: the encoder has been created (R33). -/
def State.xv (s : State) : Bool := s.encoder.isSome

/-- `N mod 64`, the logical fill of `BUF` (R27). -/
def engineFill (e : Engine) : Nat := e.n.toNat % 64

/-- The engine is at a block boundary: `N mod 64 = 0`, the predicate `ALIGNED` of R34 once `EV = 1`. -/
def engineAligned (e : Engine) : Bool := engineFill e == 0

/-- `POS`, the write cursor: the number of text characters written (R32, log entry 3). -/
def encoderPos (x : Encoder) : Nat := x.xbuf.length

/-- The encoder is full: `POS = CAP` (R33), the predicate `XFULLP` of R34 once `XV = 1`. -/
def encoderFull (cap : Cap) (x : Encoder) : Bool := encoderPos x == cap.size

/-- `STATUS`: bit 0 `HALT`, bit 1 `EV`, bit 2 `MV`, bit 3 `DV`, bit 4 `XV`, bits 7:5 zero (R35). -/
def statusByte (s : State) : Byte :=
  0#3 ++ BitVec.ofBool s.xv ++ BitVec.ofBool s.dv ++ BitVec.ofBool s.mv ++ BitVec.ofBool s.ev ++ BitVec.ofBool s.halt

/-- The one-byte answer of a predicate: 0x01 or 0x00 (spec/30_encoding.md R106). -/
def boolByte (b : Bool) : Byte := if b then 0x01 else 0x00

end Sys2Proof.Machine
end

