-- ==== Sys2Proof/Machine/Ops.lean ====
section
/-! DEFINITION. The named operations over the state: one setter per piece of state, responses (spec/30_encoding.md R104 to
R106), the one fault entry (spec/60_exceptions.md R258) with the recoverable error (R256) and the halted refusal (R260) beside
it, the order of checks (R262), fetching a packet (R90, R95), and reading the address spaces (spec/20_memory.md R60, R61). There
is no return from a fault (R260): only reset clears `HALT`. -/

namespace Sys2Proof.Machine

/-! ### Writing one piece of state -/

/-- Replace the engine; `none` clears `EV`. -/
def setEngine (e : Option Engine) (s : State) : State := { s with engine := e }

/-- Replace the midstate register. -/
def setMidstate (m : Option Midstate) (s : State) : State := { s with midstate := m }

/-- Replace the digest register. -/
def setDigest (d : Option Bytes32) (s : State) : State := { s with digest := d }

/-- Replace the encoder. -/
def setEncoder (x : Option Encoder) (s : State) : State := { s with encoder := x }

/-- Record a fault: `HALT <- 1; FCODE <- code; FINFO <- info` (R258). -/
def setFault (code : Byte) (info : U64) (s : State) : State := { s with halt := true, fcode := code, finfo := info }

/-- The command stream after a packet has been consumed. -/
def setCmd (bytes : List Byte) (s : State) : State := { s with cmd := bytes }

/-- Emit one response packet, after those before it (R91). -/
def emit (r : Response) (s : State) : State := { s with rsp := s.rsp ++ [r] }

/-! ### Responses -/

/-- The status byte of a response (R105). -/
def statusCode : Status → Byte
  | .ok => 0x00
  | .errBoundary => 0x01
  | .fault => 0xFE
  | .halted => 0xFF

/-- A response packet's bytes: status, 16-bit big-endian length, payload (R104). -/
def responseBytes (r : Response) : List Byte :=
  statusCode r.status :: (bytesBe16 (BitVec.ofNat 16 r.payload.length) ++ r.payload)

/-- The bytes waiting on the response stream, first byte first (R91). -/
def responseStream (s : State) : List Byte := (s.rsp.map responseBytes).flatten

/-- `respond(payload)`: the command completes with status `OK` (R12). -/
def respondOk (payload : List Byte) (s : State) : Result := .next (emit ⟨.ok, payload⟩ s)

/-- `return Err(E_BOUNDARY, info)`: nothing changes, the response carries the count, the block goes on (R12, R256). -/
def returnBoundary (info : U64) (s : State) : Result := .next (emit ⟨.errBoundary, bytesBe64 info⟩ s)

/-- A halted block refuses the command: nothing changes, the response is `HALTED` and empty (R260). -/
def refuseHalted (s : State) : Result := .next (emit ⟨.halted, []⟩ s)

/-! ### Taking a fault -/

/-- The value written to `FCODE` (R250). -/
def faultByte : FaultCode → Byte
  | .illegal => 1
  | .noObj => 2
  | .msAlign => 3
  | .capacity => 4
  | .length => 5

/-- The number of an object, the information word of `F_NOOBJ` (R251). -/
def objectNumber : Object → U64
  | .engine => 1
  | .midstate => 2
  | .digest => 3
  | .encoder => 4

/-- `raise Fault(code, info)` (R258): the fault registers are written, the response is `FAULT` with `code ‖ bytes_be64(info)`,
and nothing else happens. -/
def raiseFault (code : FaultCode) (info : U64) (s : State) : Result :=
  .next (emit ⟨.fault, faultByte code :: bytesBe64 info⟩ (setFault (faultByte code) info s))

/-- Check 1 of R262: a halted block refuses the command (every command but SSTAT goes through here). -/
def unlessHalted (s : State) (k : Result) : Result := if s.halt then refuseHalted s else k

/-- An illegal header (R98): refused on a halted block, otherwise `Fault(F_ILLEGAL, zext_64(hdr))` (R253, R262). -/
def executeIllegal (hdr : Word) (s : State) : Result :=
  unlessHalted s (raiseFault .illegal (hdr.setWidth 64) s)

/-! ### Fetching a packet -/

/-- What the block finds at the front of its command stream, with the state whose stream stands after the packet. -/
inductive Fetched where
  | incomplete
  | illegal (hdr : Word) (s : State)
  | command (i : Instr) (s : State)
  deriving DecidableEq, Repr

/-- Consume one whole packet, its payload included, whatever its outcome will be (R95, R259, R260). -/
def fetch (s : State) : Fetched :=
  match Sys2Proof.decode s.cmd with
  | .incomplete => .incomplete
  | .illegal hdr _ rest => .illegal hdr (setCmd rest s)
  | .packet i rest => .command i (setCmd rest s)

/-- The state with the packet whose table bits are `w` put in front of the command stream (log entry 7). -/
def placePacket (nbits w : Nat) (s : State) : State := setCmd (Sys2Proof.packetOfTableWord nbits w ++ s.cmd) s

/-! ### The address spaces -/

/-- The byte-wide address spaces (R60). The word-wide ROMs `IV` and `K` are `ivRom` and `kRom`. -/
inductive Space where
  | buf
  | mb
  | dg
  | xbuf
  deriving DecidableEq, Repr

/-- The size in bytes of a space (R60). -/
def spaceSize (cap : Cap) : Space → Nat
  | .buf => 64
  | .mb => 32
  | .dg => 32
  | .xbuf => cap.size

/-- The bytes a space holds, from its index 0: nothing while its object does not exist, and only the meaningful prefix of
`BUF` and `XBUF` (R25, R32, R39). -/
def spaceBytes (s : State) : Space → List Byte
  | .buf => match s.engine with
    | none => []
    | some e => e.buf
  | .mb => match s.midstate with
    | none => []
    | some m => m.mb.toList
  | .dg => match s.digest with
    | none => []
    | some d => d.toList
  | .xbuf => match s.encoder with
    | none => []
    | some x => x.xbuf

/-- The byte at an index of a space; `none` where no value is held. -/
def readByte (s : State) (sp : Space) (a : Nat) : Option Byte := (spaceBytes s sp)[a]?

end Sys2Proof.Machine
end

