-- ==== Sys2Proof/Machine/Operands.lean ====
section
/-! DEFINITION. What a command takes its operands from: the object it needs (spec/60_exceptions.md R252) and the digit table its
case selects (spec/30_encoding.md R94, spec/43_hexenc.md R211). Header and payload operands are assembled by the decoder. -/

namespace Sys2Proof.Machine

/-- The command needs an engine: `Fault(F_NOOBJ, 1)` without one (R160, R252). -/
def withEngine (s : State) (k : Engine → Result) : Result :=
  match s.engine with
  | none => raiseFault .noObj (objectNumber .engine) s
  | some e => k e

/-- The command needs a midstate: `Fault(F_NOOBJ, 2)` without one (R252). -/
def withMidstate (s : State) (k : Midstate → Result) : Result :=
  match s.midstate with
  | none => raiseFault .noObj (objectNumber .midstate) s
  | some m => k m

/-- The command needs a digest: `Fault(F_NOOBJ, 3)` without one (R252). -/
def withDigest (s : State) (k : Bytes32 → Result) : Result :=
  match s.digest with
  | none => raiseFault .noObj (objectNumber .digest) s
  | some d => k d

/-- The command needs an encoder: `Fault(F_NOOBJ, 4)` without one (R210, R252). -/
def withEncoder (s : State) (k : Encoder → Result) : Result :=
  match s.encoder with
  | none => raiseFault .noObj (objectNumber .encoder) s
  | some x => k x

/-- The digit table of a case (R211). -/
def digitTable : Case → Vector Byte 16
  | .lower => hexLoRom
  | .upper => hexUpRom

/-- Entry `d` of the digit table of a case. -/
def hexDigit (c : Case) (d : BitVec 4) : Byte := (digitTable c)[d.toNat]'d.isLt

/-- `HEXPAIR(v, case)`: the two digits of a byte, high nibble first (R69, R211). -/
def hexPair (v : Byte) (c : Case) : List Byte := [hexDigit c (v.extractLsb' 4 4), hexDigit c (v.extractLsb' 0 4)]

end Sys2Proof.Machine
end

