-- ==== Sys2Proof/Machine/Engine.lean ====
section
/-! DEFINITION. The Hash Engine (spec/41_engine.md R160 to R176): absorbing bytes, padding, the reference function `SHA256`, and
the meanings of ENEW, EFROMMS, EINPUT, ECANX, EMID and EFINAL. -/

namespace Sys2Proof.Machine

/-- One pass of the byte loop of R163 on `(H, BUF[0..f))`: the byte lands at index `f`; when the fill reaches 64 the block is
compressed and the fill returns to 0. -/
def absorbByte (p : HState × List Byte) (b : Byte) : HState × List Byte :=
  let buf := memWrite p.2 p.2.length [b]
  if buf.length = 64 then (compress p.1 (block (memRead buf 0 64)), []) else (p.1, buf)

/-- The byte loop of R163 over a byte sequence, in order. -/
def absorb (p : HState × List Byte) (s : List Byte) : HState × List Byte := s.foldl absorbByte p

/-- `PAD(n)`: `0x80 ‖ 0^z ‖ bytes_be64(8·n)` with `z = (55 - n) mod 64` (R169). -/
def padding (n : Nat) : List Byte :=
  0x80 :: (List.replicate ((55 - (n : Int)) % 64).toNat 0 ++ bytesBe64 (BitVec.ofNat 64 (8 * n)))

/-- The first `m` consecutive 64-byte blocks of a byte sequence. -/
def blocksOf : Nat → List Byte → List Block
  | 0, _ => []
  | m + 1, p => block (memRead p 0 64) :: blocksOf m (p.drop 64)

/-- Folding `COMPRESS` over blocks, in order. -/
def compressAll (S : HState) (bs : List Block) : HState := bs.foldl compress S

/-- `SHA256(msg)` (R174): a definition for models and for MTAG, not a command. -/
def sha256 (msg : List Byte) : Bytes32 :=
  let p := msg ++ padding msg.length
  ser (compressAll ivRom (blocksOf (p.length / 64) p))

/-- ENEW (R161): `H <- IV`, `N <- 0`, `BUF` empty, `EV <- 1`; a live engine is replaced without trace (R160). -/
def execEnew (s : State) : Result :=
  unlessHalted s <| respondOk [] (setEngine (some ⟨ivRom, [], 0⟩) s)

/-- EFROMMS (R162): `H <- DESER(MB)`, `N <- MN`, `BUF` empty, `EV <- 1`; the midstate is not consumed (90 C3). -/
def execEfromms (s : State) : Result :=
  unlessHalted s <| withMidstate s fun m => respondOk [] (setEngine (some ⟨deser m.mb, [], m.mn⟩) s)

/-- EINPUT (R163): `F_LENGTH` if `N + len` would pass `2^64 - 1`, computed without wrap-around (R164); otherwise the bytes are
absorbed and counted. -/
def execEinput (bytes : List Byte) (s : State) : Result :=
  unlessHalted s <| withEngine s fun e =>
    if 2 ^ 64 - 1 < e.n.toNat + bytes.length then raiseFault .length e.n s
    else
      let p := absorb (e.h, e.buf) bytes
      respondOk [] (setEngine (some ⟨p.1, p.2, e.n + BitVec.ofNat 64 bytes.length⟩) s)

/-- ECANX (R166): one byte, whether `N mod 64 = 0`. -/
def execEcanx (s : State) : Result :=
  unlessHalted s <| withEngine s fun e => respondOk [boolByte (engineAligned e)] s

/-- EMID (R167): off a boundary the recoverable error carries `N` and nothing changes (R168); at one, `MB <- SER(H)`, `MN <- N`,
`MV <- 1`, and the engine is unchanged. -/
def execEmid (s : State) : Result :=
  unlessHalted s <| withEngine s fun e =>
    if engineAligned e then
      respondOk ((ser e.h).toList ++ bytesBe64 e.n) (setMidstate (some ⟨ser e.h, e.n⟩) s)
    else returnBoundary e.n s

/-- EFINAL (R170): `F_LENGTH` if `N ≥ 2^61` (R171); otherwise the padding is absorbed uncounted, `DG <- SER(H)`, `DV <- 1`, and
the engine is consumed. -/
def execEfinal (s : State) : Result :=
  unlessHalted s <| withEngine s fun e =>
    if 2 ^ 61 ≤ e.n.toNat then raiseFault .length e.n s
    else
      let dg := ser (absorb (e.h, e.buf) (padding e.n.toNat)).1
      respondOk dg.toList (setEngine none (setDigest (some dg) s))

end Sys2Proof.Machine
end

