-- ==== Sys2Proof/Machine/HexEnc.lean ====
section
/-! DEFINITION. The Buffered Hex Encoder (spec/43_hexenc.md R210 to R224): the capacity check and write `PUT`, and the meanings
of XNEW, XPUTB, XPUTN, XPUTD, XFULL, XSTR and XCLEAR. -/

namespace Sys2Proof.Machine

/-- One pass of the byte loop of R213: the two characters land at `POS` and `POS + 1`, and `POS` advances by 2. -/
def putByte (c : Case) (xbuf : List Byte) (b : Byte) : List Byte := memWrite xbuf xbuf.length (hexPair b c)

/-- The byte loop of R213, in order. -/
def putBytes (xbuf bytes : List Byte) (c : Case) : List Byte := bytes.foldl (putByte c) xbuf

/-- `PUT(s, case)` with its response (R213): `F_CAPACITY` if `2·k > CAP - POS`, over the naturals and before any write; otherwise
every byte is written. -/
def put (x : Encoder) (bytes : List Byte) (c : Case) (s : State) : Result :=
  if s.cap.size - encoderPos x < 2 * bytes.length then raiseFault .capacity (BitVec.ofNat 64 bytes.length) s
  else respondOk [] (setEncoder (some ⟨putBytes x.xbuf bytes c⟩) s)

/-- XNEW (R214): `POS <- 0`, `XV <- 1`. -/
def execXnew (s : State) : Result :=
  unlessHalted s <| respondOk [] (setEncoder (some ⟨[]⟩) s)

/-- XPUTB (R212): `PUT` of one byte. -/
def execXputb (byte : Byte) (c : Case) (s : State) : Result :=
  unlessHalted s <| withEncoder s fun x => put x [byte] c s

/-- XPUTN (R215): `PUT` of the payload, all or nothing (R216). -/
def execXputn (bytes : List Byte) (c : Case) (s : State) : Result :=
  unlessHalted s <| withEncoder s fun x => put x bytes c s

/-- XFULL (R218): one byte, whether `POS = CAP`. -/
def execXfull (s : State) : Result :=
  unlessHalted s <| withEncoder s fun x => respondOk [boolByte (encoderFull s.cap x)] s

/-- XSTR (R219): the text written so far. -/
def execXstr (s : State) : Result :=
  unlessHalted s <| withEncoder s fun x => respondOk (memRead x.xbuf 0 (encoderPos x)) s

/-- XCLEAR (R224): `POS <- 0`. -/
def execXclear (s : State) : Result :=
  unlessHalted s <| withEncoder s fun _ => respondOk [] (setEncoder (some ⟨[]⟩) s)

/-- XPUTD (R217): `PUT` of the 32 digest bytes; the digest is looked for before the encoder. -/
def execXputd (c : Case) (s : State) : Result :=
  unlessHalted s <| withDigest s fun d => withEncoder s fun x => put x d.toList c s

end Sys2Proof.Machine
end

