-- ==== Sys2Proof/Machine/Midstate.lean ====
section
/-! DEFINITION. The midstate commands MNEW, MPARTS and MTAG (spec/42_midstate.md R190 to R198). -/

namespace Sys2Proof.Machine

/-- The state as if `T ‖ T` had been hashed and not padded, with `T = SHA256(tag)`: one compression from `IV` (R195). It is a pure
function: the scratch of R196 is not machine state. -/
def tagState (tag : List Byte) : HState :=
  let t := (sha256 tag).toList
  compress ivRom (block (t ++ t))

/-- MNEW (R190): `F_MSALIGN` if `n mod 64 ≠ 0` (R191); otherwise the midstate register is replaced; `bytes` is not inspected. -/
def execMnew (bytes : Bytes32) (n : U64) (s : State) : Result :=
  unlessHalted s <|
    if n.toNat % 64 ≠ 0 then raiseFault .msAlign n s
    else respondOk [] (setMidstate (some ⟨bytes, n⟩) s)

/-- MPARTS (R193): the two parts, bytes first, count second. -/
def execMparts (s : State) : Result :=
  unlessHalted s <| withMidstate s fun m => respondOk (m.mb.toList ++ bytesBe64 m.mn) s

/-- MTAG (R195): `MB <- SER(S)`, `MN <- 64`, `MV <- 1`, and both answered; the engine and the digest are untouched (R196). -/
def execMtag (tag : List Byte) (s : State) : Result :=
  unlessHalted s <|
    let mb := ser (tagState tag)
    respondOk (mb.toList ++ bytesBe64 64) (setMidstate (some ⟨mb, 64⟩) s)

end Sys2Proof.Machine
end

