-- ==== Sys2Proof/Machine/System.lean ====
section
/-! DEFINITION. SSTAT and DREAD (spec/44_system.md R240 to R243). -/

namespace Sys2Proof.Machine

/-- SSTAT (R240): `STATUS ‖ FCODE ‖ bytes_be64(FINFO)`; the one command a halted block executes (R241). -/
def execSstat (s : State) : Result := respondOk (statusByte s :: s.fcode :: bytesBe64 s.finfo) s

/-- DREAD (R242): the 32 bytes of the digest register, which stays. -/
def execDread (s : State) : Result :=
  unlessHalted s <| withDigest s fun d => respondOk d.toList s

end Sys2Proof.Machine
end

