-- ==== Sys2Proof/Machine/Dispatch.lean ====
section
/-! DEFINITION. Executing one command: one arm per constructor, one direct call each. -/

namespace Sys2Proof.Machine

def exec (i : Instr) (s : State) : Host.Outcome State Fault Refusal :=
  match i with
  | .sstat => Sys2Proof.Machine.execSstat s
  | .enew => Sys2Proof.Machine.execEnew s
  | .efromms => Sys2Proof.Machine.execEfromms s
  | .einput bytes => Sys2Proof.Machine.execEinput bytes s
  | .ecanx => Sys2Proof.Machine.execEcanx s
  | .emid => Sys2Proof.Machine.execEmid s
  | .efinal => Sys2Proof.Machine.execEfinal s
  | .mnew bytes n => Sys2Proof.Machine.execMnew bytes n s
  | .mparts => Sys2Proof.Machine.execMparts s
  | .mtag tag => Sys2Proof.Machine.execMtag tag s
  | .dread => Sys2Proof.Machine.execDread s
  | .xnew => Sys2Proof.Machine.execXnew s
  | .xputb byte c => Sys2Proof.Machine.execXputb byte c s
  | .xputn bytes c => Sys2Proof.Machine.execXputn bytes c s
  | .xfull => Sys2Proof.Machine.execXfull s
  | .xstr => Sys2Proof.Machine.execXstr s
  | .xclear => Sys2Proof.Machine.execXclear s
  | .xputd c => Sys2Proof.Machine.execXputd c s

end Sys2Proof.Machine
end

