-- ==== Sys2Proof/Machine/Step.lean ====
section
/-! DEFINITION. One step: take the next packet off the command stream and execute it (spec/00_scope.md R8, spec/20_memory.md R72,
spec/70_reset_and_hazards.md R306). The step waits, as a named stuck state, while the stream holds no whole packet. -/

namespace Sys2Proof.Machine

/-- One command packet: consumed whole, then executed; an illegal header faults (R98), an incomplete packet waits (R95). -/
def step (s : State) : Host.Outcome State Fault Refusal :=
  match fetch s with
  | .incomplete => .fault .awaitingPacket
  | .illegal hdr s' => executeIllegal hdr s'
  | .command i s' => exec i s'

/-- The packet whose table bits are `w`, as the next one the block takes (log entry 7). -/
def State.withFetchWord (s : State) (nbits w : Nat) : State := placePacket nbits w s

end Sys2Proof.Machine
end

