-- ==== Sys2Proof/Machine/HostSide.lean ====
section
/-! DEFINITION. What the host can do to the block between commands (spec/30_encoding.md R90, R91, spec/70_reset_and_hazards.md
R290, R291, R303): send bytes, take a response, assert reset. None of these is a step of the block; a step never does one
(log entries 6 and 12). -/

namespace Sys2Proof.Machine

/-- The host sends bytes on the command stream, after those sent before (R90, R303). -/
def hostSend (bytes : List Byte) (s : State) : State := setCmd (s.cmd ++ bytes) s

/-- The host takes the oldest response, if there is one (R91, R303). -/
def hostTake (s : State) : Option (Response × State) :=
  match s.rsp with
  | [] => none
  | r :: rs => some (r, { s with rsp := rs })

/-- The host asserts `rst`: from every state, halted or not, to the reset state, both streams emptied; `CAP` is not state and
stays (R41, R290, R291). -/
def hostReset (s : State) : State := { State.reset with cap := s.cap }

end Sys2Proof.Machine
end

