-- ==== Sys2Proof/Machine/Run.lean ====
section
/-! DEFINITION. Executing a list of commands in order (spec/20_memory.md R75, spec/70_reset_and_hazards.md R302), the
pseudo-commands as fixed expansions into real commands (spec/30_encoding.md R109), and the command stream that carries a list. -/

namespace Sys2Proof.Machine

/-- Execute commands one after another, each on the state the one before it left (R75). -/
def execAll : List Instr → State → Result
  | [], s => .next s
  | i :: is, s =>
    match exec i s with
    | .next s' => execAll is s'
    | .fault r => .fault r
    | .refused r => .refused r

/-- The command stream that carries a list of commands: their packets back to back (R90). -/
def packetsOf (is : List Instr) : List Byte := (is.map Sys2Proof.encode).flatten

/-- `INPUT s` (R109) with `fuel` further packets allowed; `|s|` of them are always enough. -/
def inputCommands : Nat → List Byte → List Instr
  | 0, s => [.einput s]
  | fuel + 1, s =>
    if s.length ≤ Sys2Proof.maxPayload then [.einput s]
    else .einput (s.take Sys2Proof.maxPayload) :: inputCommands fuel (s.drop Sys2Proof.maxPayload)

/-- The six pseudo-commands (R109). -/
inductive Pseudo where
  | input (s : List Byte)
  | sha256 (s : List Byte)
  | tagged (tag msg : List Byte)
  | resume (bytes : Bytes32) (n : U64) (s : List Byte)
  | dhex (c : Case)
  | hex (s : List Byte) (c : Case)
  deriving DecidableEq, Repr

/-- The expansion of a pseudo-command; it is not atomic (R109, R300). -/
def expandPseudo : Pseudo → List Instr
  | .input s => inputCommands s.length s
  | .sha256 s => [.enew] ++ inputCommands s.length s ++ [.efinal]
  | .tagged tag msg => [.mtag tag, .efromms] ++ inputCommands msg.length msg ++ [.efinal]
  | .resume bytes n s => [.mnew bytes n, .efromms] ++ inputCommands s.length s
  | .dhex c => [.xclear, .xputd c, .xstr]
  | .hex s c => [.xclear, .xputn s c, .xstr]

end Sys2Proof.Machine
end

