-- ==== Sys2Proof/Safety.lean ====
section
/-! DEFINITION. What claims are stated in: the invariant of the state between commands (spec/10_state.md R25, R27, R29, R32, R36,
R37), a successful run (spec/70_reset_and_hazards.md R302), and which command may write which state (R40). -/

namespace Sys2Proof.Machine

/-- One of the 22 hexadecimal digit codes of R32. -/
def isHexDigit (b : Byte) : Bool :=
  (0x30 ≤ b.toNat && b.toNat ≤ 0x39) || (0x61 ≤ b.toNat && b.toNat ≤ 0x66) || (0x41 ≤ b.toNat && b.toNat ≤ 0x46)

/-- The fill of `BUF` is `N mod 64` (R27), hence below 64 (R25). -/
abbrev Engine.Inv (e : Engine) : Prop := e.buf.length = e.n.toNat % 64

/-- `MN mod 64 = 0` (R29). -/
abbrev Midstate.Inv (m : Midstate) : Prop := m.mn.toNat % 64 = 0

/-- `0 ≤ POS ≤ CAP`, `POS` even, and every byte of `XBUF[0..POS)` an ASCII hex digit (R32). -/
abbrev Encoder.Inv (cap : Cap) (x : Encoder) : Prop :=
  x.xbuf.length ≤ cap.size ∧ x.xbuf.length % 2 = 0 ∧ x.xbuf.all isHexDigit = true

/-- `FCODE` and `FINFO` are 0 until a fault is taken, and then `FCODE` is one of the codes 1 to 5 (R36, R37). -/
abbrev State.FaultInv (s : State) : Prop :=
  (s.halt = false → s.fcode = 0 ∧ s.finfo = 0) ∧ (s.halt = true → 1 ≤ s.fcode.toNat ∧ s.fcode.toNat ≤ 5)

/-- The payload lengths of R105; an `OK` payload fits the 16-bit length of R104. -/
def responseFits (r : Response) : Bool :=
  match r.status with
  | .ok => decide (r.payload.length ≤ 65535)
  | .errBoundary => decide (r.payload.length = 8)
  | .fault => decide (r.payload.length = 9)
  | .halted => decide (r.payload.length = 0)

/-- The invariant of the state between any two commands. -/
abbrev State.Inv (s : State) : Prop :=
  (∀ e ∈ s.engine, e.Inv) ∧ (∀ m ∈ s.midstate, m.Inv) ∧ (∀ x ∈ s.encoder, x.Inv s.cap) ∧ s.FaultInv ∧
    s.rsp.all responseFits = true

/-- A run that ended here is successful (R302): nothing has faulted. -/
def State.successful (s : State) : Bool := !s.halt

/-- The commands whose row of R40's matrix marks `H`, `BUF`, `N` or `EV` with W. -/
def writesEngine : Instr → Bool
  | .enew | .efromms | .einput _ | .efinal => true
  | .sstat | .ecanx | .emid | .mnew _ _ | .mparts | .mtag _ | .dread
  | .xnew | .xputb _ _ | .xputn _ _ | .xfull | .xstr | .xclear | .xputd _ => false

/-- The commands whose row of R40's matrix marks `MB`, `MN` or `MV` with W. -/
def writesMidstate : Instr → Bool
  | .emid | .mnew _ _ | .mtag _ => true
  | .sstat | .enew | .efromms | .einput _ | .ecanx | .efinal | .mparts | .dread
  | .xnew | .xputb _ _ | .xputn _ _ | .xfull | .xstr | .xclear | .xputd _ => false

/-- The commands whose row of R40's matrix marks `DG` or `DV` with W. -/
def writesDigest : Instr → Bool
  | .efinal => true
  | .sstat | .enew | .efromms | .einput _ | .ecanx | .emid | .mnew _ _ | .mparts | .mtag _ | .dread
  | .xnew | .xputb _ _ | .xputn _ _ | .xfull | .xstr | .xclear | .xputd _ => false

/-- The commands whose row of R40's matrix marks `XBUF`, `POS` or `XV` with W. -/
def writesEncoder : Instr → Bool
  | .xnew | .xputb _ _ | .xputn _ _ | .xclear | .xputd _ => true
  | .sstat | .enew | .efromms | .einput _ | .ecanx | .emid | .efinal | .mnew _ _ | .mparts | .mtag _ | .dread
  | .xfull | .xstr => false

/-- How many characters a write command of the encoder stores, from `POS` on (spec/43_hexenc.md R212, R215, R217). -/
def charsWritten : Instr → Nat
  | .xputb _ _ => 2
  | .xputn bytes _ => 2 * bytes.length
  | .xputd _ => 64
  | .sstat | .enew | .efromms | .einput _ | .ecanx | .emid | .efinal | .mnew _ _ | .mparts | .mtag _ | .dread
  | .xnew | .xfull | .xstr | .xclear => 0

/-- The commands whose row of R40's matrix does not mark `XBUF`, `POS` or `XV` with R. -/
def ignoresEncoder : Instr → Bool
  | .enew | .efromms | .einput _ | .ecanx | .emid | .efinal | .mnew _ _ | .mparts | .mtag _ | .dread | .xnew => true
  | .sstat | .xputb _ _ | .xputn _ _ | .xfull | .xstr | .xclear | .xputd _ => false

/-- The commands whose row of R40's matrix does not mark `H`, `BUF`, `N` or `EV` with R. -/
def ignoresEngine : Instr → Bool
  | .enew | .efromms | .mnew _ _ | .mparts | .mtag _ | .dread
  | .xnew | .xputb _ _ | .xputn _ _ | .xfull | .xstr | .xclear | .xputd _ => true
  | .sstat | .einput _ | .ecanx | .emid | .efinal => false

/-- What a completed command leaves when it changes nothing but the response stream: the `OK` response with this payload (R12,
spec/30_encoding.md R105). -/
def State.answered (s : State) (payload : List Byte) : State := { s with rsp := s.rsp ++ [⟨.ok, payload⟩] }

/-- What `raise Fault(code, info)` leaves, in the words of spec/60_exceptions.md R258. -/
def State.faulted (s : State) (code : Byte) (info : U64) : State :=
  { s with halt := true, fcode := code, finfo := info, rsp := s.rsp ++ [⟨.fault, code :: bytesBe64 info⟩] }

/-- What a refused command leaves on a halted block (spec/60_exceptions.md R260). -/
def State.refusedHalted (s : State) : State := { s with rsp := s.rsp ++ [⟨.halted, []⟩] }

/-- The state an outcome goes on with, if it goes on. -/
def nextState (r : Result) : Option State :=
  match r with
  | .next s => some s
  | .fault _ => none
  | .refused _ => none

end Sys2Proof.Machine
end

