-- ==== Sys2Proof/Certificates/Slice0/Obligations.lean ====
section
/-! DEFINITION. The statements for the provers. Each formalises what its docstring cites; `State.answered`, `State.faulted` and
`State.refusedHalted` (Sys2Proof/Safety.lean) are record updates, so an equation of states also says that every other field keeps
its value. -/

open Sys2Proof Sys2Proof.Machine

/-! ### Encoding and framing (spec/30_encoding.md) -/

/-- R97: each command has exactly one packet, with the reserved bits 0 and `arg` the payload length, the byte or 0; decoding that
packet returns the command; what decodes is well-formed; and an illegal header is one that matches no row. -/
def Obligations.PacketsAndCommandsCorrespond : Prop :=
  (∀ (bs : List Byte) (i : Instr) (rest : List Byte),
    decode bs = .packet i rest ↔ i.WellFormed ∧ bs = encode i ++ rest) ∧
  (∀ i : Instr, i.WellFormed → ∃ (c : BitVec 1) (arg : BitVec 16),
    encode i = bytesBe32 (i.opcode.code ++ 0#7 ++ c ++ arg) ++ i.payload ∧
    (i.opcode.format = .V → arg.toNat = i.payload.length) ∧ (i.opcode.format ≠ .V → i.opcode ≠ .xputb → arg = 0) ∧
    ∀ byte case, i = .xputb byte case → arg.toNat = byte.toNat) ∧
  ∀ (bs : List Byte) (hdr : Word) (why : Illegal) (rest : List Byte),
    decode bs = .illegal hdr why rest → ∀ r ∈ opTable, hdr &&& r.mask ≠ r.pattern

/-- R98: a header is illegal exactly when it matches no row of the opcode map, and exactly when one of the five conditions holds;
executing one faults and has no other effect, its payload consumed. -/
def Obligations.IllegalHeaderIffNoRowMatches : Prop :=
  ∀ hdr : Word,
    ((∃ why, checkHeader hdr = .error why) ↔ ∀ r ∈ opTable, hdr &&& r.mask ≠ r.pattern) ∧
    ((∃ why, checkHeader hdr = .error why) ↔
      let op := hdr.extractLsb' 24 8
      let arg := hdr.extractLsb' 0 16
      op ∉ ([0x01, 0x10, 0x11, 0x12, 0x13, 0x14, 0x15, 0x20, 0x21, 0x22, 0x30, 0x40, 0x41, 0x42, 0x43, 0x44, 0x45, 0x46] :
        List Byte) ∨
      hdr.extractLsb' 17 7 ≠ 0 ∨
      (hdr.getLsbD 16 = true ∧ op ≠ 0x41 ∧ op ≠ 0x42 ∧ op ≠ 0x46) ∨
      (arg ≠ 0 ∧ op ≠ 0x12 ∧ op ≠ 0x22 ∧ op ≠ 0x42 ∧ op ≠ 0x41) ∨
      (op = 0x41 ∧ hdr.extractLsb' 8 8 ≠ 0)) ∧
    ∀ (why : Illegal) (s : State) (payload rest : List Byte), checkHeader hdr = .error why → s.halt = false →
      s.cmd = bytesBe32 hdr ++ payload ++ rest → payload.length = paylen hdr →
      step s = .next (State.faulted { s with cmd := rest } 1 (hdr.setWidth 64))

/-- R96: there are 18 rows; the masks are such that at most one row matches a header; and a header that matches a row is a packet of
that row's command. -/
def Obligations.HeaderSelectsItsRow : Prop :=
  opTable.length = 18 ∧
  (∀ (hdr : Word) (r₁ r₂ : OpRow), r₁ ∈ opTable → r₂ ∈ opTable →
    hdr &&& r₁.mask = r₁.pattern → hdr &&& r₂.mask = r₂.pattern → r₁ = r₂) ∧
  ∀ (hdr : Word) (r : OpRow) (payload rest : List Byte), r ∈ opTable → hdr &&& r.mask = r.pattern → payload.length = paylen hdr →
    ∃ i, decode (bytesBe32 hdr ++ payload ++ rest) = .packet i rest ∧ i.mnemonic = r.mnemonic

/-- R95: the payload length from `op` and `arg` alone, the whole packet consumed whether the header is legal or not, and no
command, no effect and no response before the packet is whole. -/
def Obligations.FramingFollowsPaylen : Prop :=
  (∀ (op : Byte) (rsv : BitVec 7) (c : BitVec 1) (arg : BitVec 16),
    paylen (op ++ rsv ++ c ++ arg) =
      if op ∈ ([0x12, 0x22, 0x42] : List Byte) then arg.toNat else if op = 0x20 then 40 else 0) ∧
  (∀ (hdr : Word) (payload rest : List Byte), payload.length = paylen hdr →
    (∀ o, checkHeader hdr = .ok o → decode (bytesBe32 hdr ++ payload ++ rest) = .packet (assemble o hdr payload) rest) ∧
    (∀ why, checkHeader hdr = .error why → decode (bytesBe32 hdr ++ payload ++ rest) = .illegal hdr why rest)) ∧
  (∀ (hdr : Word) (body : List Byte), body.length < paylen hdr → decode (bytesBe32 hdr ++ body) = .incomplete) ∧
  (∀ bs : List Byte, bs.length < 4 → decode bs = .incomplete) ∧
  ∀ s t : State, decode s.cmd = .incomplete → step s ≠ .next t

/-- 30_encoding section 3: the block waits exactly while the stream holds no whole packet. That waiting is the stop
`awaitingPacket` of the model is log entry 5, the model's choice. -/
def Obligations.BlockWaitsForWholePacket : Prop :=
  ∀ s : State, step s = .fault .awaitingPacket ↔
    (s.cmd.length < 4 ∨ ∃ (hdr : Word) (body : List Byte), s.cmd = bytesBe32 hdr ++ body ∧ body.length < paylen hdr)

/-- Words written out from 30_encoding R92, R96 decode to the commands they stand for (one of each family). -/
def Obligations.SampleWordsDecode : Prop :=
  decode [0x01, 0x00, 0x00, 0x00] = .packet .sstat [] ∧
  decode [0x12, 0x00, 0x00, 0x03, 0x61, 0x62, 0x63, 0x15] = .packet (.einput [0x61, 0x62, 0x63]) [0x15] ∧
  decode [0x22, 0x00, 0x00, 0x01, 0x74] = .packet (.mtag [0x74]) [] ∧
  decode [0x30, 0x00, 0x00, 0x00] = .packet .dread [] ∧
  decode [0x41, 0x01, 0x00, 0x2A] = .packet (.xputb 0x2A .upper) [] ∧
  decode [0x41, 0x00, 0x01, 0x00] = .illegal 0x41000100 .byteTooWide []

/-! ### Steps, faults and the halted block (spec/60_exceptions.md, spec/20_memory.md) -/

/-- 00_scope section 6, 30_encoding section 3: a step executes the decoded command, on the state whose command stream stands after
its packet. -/
def Obligations.StepExecutesDecodedCommand : Prop :=
  ∀ (s : State) (i : Instr) (rest : List Byte), decode s.cmd = .packet i rest → step s = exec i { s with cmd := rest }

/-- R253: a header that matches no row faults before any object or operand is looked at, and its payload is consumed. -/
def Obligations.IllegalHeaderFaults : Prop :=
  ∀ (s : State) (hdr : Word) (payload rest : List Byte),
    s.halt = false → s.cmd = bytesBe32 hdr ++ payload ++ rest → payload.length = paylen hdr →
    (∀ r ∈ opTable, hdr &&& r.mask ≠ r.pattern) →
    step s = .next (State.faulted { s with cmd := rest } 1 (hdr.setWidth 64))

/-- R260, R241: while halted every packet but a legal SSTAT is consumed and answered HALTED with nothing else changed; SSTAT is answered
normally; `HALT`, `FCODE` and `FINFO` stay; only reset clears `HALT`, and it discards every object. -/
def Obligations.HaltedBlockOnlyAnswersSstat : Prop :=
  ∀ s : State, s.halt = true →
    (∀ i rest, decode s.cmd = .packet i rest → i ≠ .sstat →
      step s = .next (State.refusedHalted { s with cmd := rest })) ∧
    (∀ hdr why rest, decode s.cmd = .illegal hdr why rest →
      step s = .next (State.refusedHalted { s with cmd := rest })) ∧
    (∀ rest, decode s.cmd = .packet .sstat rest →
      step s = .next (State.answered { s with cmd := rest } (statusByte s :: s.fcode :: bytesBe64 s.finfo))) ∧
    (∀ t, step s = .next t → t.halt = true ∧ t.fcode = s.fcode ∧ t.finfo = s.finfo) ∧
    ((hostReset s).halt = false ∧ (hostReset s).engine = none ∧ (hostReset s).midstate = none ∧
      (hostReset s).digest = none ∧ (hostReset s).encoder = none)

/-- R91: every command packet produces exactly one response packet, after those before it, and a step takes exactly one packet. -/
def Obligations.OneResponsePerPacket : Prop :=
  ∀ s t : State, step s = .next t →
    (∃ r, t.rsp = s.rsp ++ [r]) ∧
    ∃ (hdr : Word) (payload : List Byte), payload.length = paylen hdr ∧ s.cmd = bytesBe32 hdr ++ payload ++ t.cmd

/-- 70_reset section 5: every command completes with a response, in every state: none stops the model. -/
def Obligations.EveryCommandAnswersNext : Prop :=
  ∀ (i : Instr) (s : State), ∃ t r, exec i s = .next t ∧ t.rsp = s.rsp ++ [r]

/-- R258: a step that takes a fault changes `HALT`, `FCODE` and `FINFO`, answers FAULT, and does nothing else; and the command
stream it leaves is the one before without the one packet that faulted. -/
def Obligations.FaultEntryChangesNothingElse : Prop :=
  ∀ s t : State, step s = .next t → s.halt = false → t.halt = true →
    t = State.faulted { s with cmd := t.cmd } t.fcode t.finfo ∧
    ∃ (hdr : Word) (payload : List Byte), payload.length = paylen hdr ∧ s.cmd = bytesBe32 hdr ++ payload ++ t.cmd

/-- 60_exceptions sections 1 and 6: which commands can fault, and the codes they can fault with. -/
def Obligations.FaultsComeFromTheirCommands : Prop :=
  ∀ (i : Instr) (s t : State), s.halt = false → exec i s = .next t →
    (i.opcode ∈ [Opcode.sstat, .enew, .mtag, .xnew] → t.halt = false) ∧
    (i.opcode ∈ [Opcode.efromms, .mparts, .dread, .ecanx, .emid, .xfull, .xstr, .xclear] → t.halt = true → t.fcode = 2) ∧
    (i.opcode ∈ [Opcode.einput, .efinal] → t.halt = true → t.fcode = 2 ∨ t.fcode = 5) ∧
    (i.opcode = Opcode.mnew → t.halt = true → t.fcode = 3) ∧
    (i.opcode ∈ [Opcode.xputb, .xputn, .xputd] → t.halt = true → t.fcode = 2 ∨ t.fcode = 4)

/-- R252: a command whose object is missing faults with the object's number; XPUTD looks for the digest first; a command that creates
an object does not require that object to exist or not to exist. -/
def Obligations.MissingObjectFaults : Prop :=
  ∀ s : State, s.halt = false →
    (∀ i, i.opcode ∈ [Opcode.enew, .mtag, .xnew] → ∃ t, exec i s = .next t ∧ t.halt = false) ∧
    (∀ bytes n, n.toNat % 64 = 0 → ∃ t, exec (.mnew bytes n) s = .next t ∧ t.halt = false) ∧
    (s.midstate ≠ none → ∃ t, exec .efromms s = .next t ∧ t.halt = false) ∧
    (∀ e, s.engine = some e → e.n.toNat % 64 = 0 → ∃ t, exec .emid s = .next t ∧ t.halt = false) ∧
    (∀ e, s.engine = some e → e.n.toNat < 2 ^ 61 → ∃ t, exec .efinal s = .next t ∧ t.halt = false) ∧
    (s.engine = none → (∀ bytes, exec (.einput bytes) s = .next (s.faulted 2 1)) ∧
      exec .ecanx s = .next (s.faulted 2 1) ∧ exec .emid s = .next (s.faulted 2 1) ∧
      exec .efinal s = .next (s.faulted 2 1)) ∧
    (s.midstate = none → exec .efromms s = .next (s.faulted 2 2) ∧ exec .mparts s = .next (s.faulted 2 2)) ∧
    (s.digest = none → exec .dread s = .next (s.faulted 2 3) ∧ ∀ c, exec (.xputd c) s = .next (s.faulted 2 3)) ∧
    (s.encoder = none → (∀ b c, exec (.xputb b c) s = .next (s.faulted 2 4)) ∧
      (∀ bytes c, exec (.xputn bytes c) s = .next (s.faulted 2 4)) ∧ exec .xfull s = .next (s.faulted 2 4) ∧
      exec .xstr s = .next (s.faulted 2 4) ∧ exec .xclear s = .next (s.faulted 2 4) ∧
      (s.digest ≠ none → ∀ c, exec (.xputd c) s = .next (s.faulted 2 4)))

/-! ### State, reset and the frame (spec/10_state.md, spec/70_reset_and_hazards.md) -/

/-- R41, and the streams of R290: the state after reset, from any state, halted or not: nothing exists, no register or buffer holds a
value, both streams are empty, so that what is sent next starts with the first byte of a header; `CAP` is unchanged. The model's reset state is
such a state. -/
def Obligations.ResetLeavesNothing : Prop :=
  (∀ s : State,
    (hostReset s).halt = false ∧ (hostReset s).fcode = 0 ∧ (hostReset s).finfo = 0 ∧
    (hostReset s).ev = false ∧ (hostReset s).mv = false ∧ (hostReset s).dv = false ∧ (hostReset s).xv = false ∧
    (∀ sp a, readByte (hostReset s) sp a = none) ∧ (hostReset s).cap = s.cap ∧
    (hostReset s).cmd = [] ∧ (hostReset s).rsp = [] ∧ ∀ bytes, (hostSend bytes (hostReset s)).cmd = bytes) ∧
  hostReset State.reset = State.reset

/-- The invariant of the state between commands (R25, R27, R29, R32, R36, R37) is kept by every step, from every state that
meets it. -/
def Obligations.StepKeepsInvariant : Prop :=
  ∀ s t : State, s.Inv → step s = .next t → t.Inv

/-- The reset state meets the invariant, and so does what the host can make of a state that does. -/
def Obligations.ResetMeetsInvariant : Prop :=
  State.reset.Inv ∧ (∀ s, (hostReset s).Inv) ∧ (∀ s bytes, State.Inv s → (hostSend bytes s).Inv) ∧
    ∀ s r t, State.Inv s → hostTake s = some (r, t) → t.Inv

/-- R7, R33, R38: `CAP` is even, from 2 to 65534, and no step changes it. -/
def Obligations.CapacityIsFixed : Prop :=
  ∀ s t : State, step s = .next t →
    t.cap = s.cap ∧ t.cap.size % 2 = 0 ∧ 2 ≤ t.cap.size ∧ t.cap.size ≤ 65534

/-- The frame of every command, per object and valid bit (10_state section 11): an object can change only where the command's row of
the matrix marks W in it, EINPUT keeps `EV`, and XPUTB, XPUTN, XPUTD and XCLEAR keep `XV`; a command that does not answer OK changes
no object at all (60_exceptions sections 1, 4, 5); every location of an unwritten space reads as before, and so does every location
of `XBUF` outside the characters that XPUTB, XPUTN or XPUTD write from `POS` on (43_hexenc sections 1, 3, 4, 5); and the command
stream, `CAP` and, unless a fault is taken, the fault registers keep their values. The other columns of the matrix that a row
leaves without W inside an object it writes are `N` under EFINAL and `XBUF` under XNEW and XCLEAR: no value of them is left, since
the engine is gone and `POS` is 0 (log entries 2, 3). -/
def Obligations.CommandsWriteOnlyTheirRow : Prop :=
  ∀ (i : Instr) (s t : State), exec i s = .next t →
    (writesEngine i = false → t.engine = s.engine ∧ ∀ a, readByte t .buf a = readByte s .buf a) ∧
    (writesMidstate i = false → t.midstate = s.midstate ∧ ∀ a, readByte t .mb a = readByte s .mb a) ∧
    (writesDigest i = false → t.digest = s.digest ∧ ∀ a, readByte t .dg a = readByte s .dg a) ∧
    (writesEncoder i = false → t.encoder = s.encoder ∧ ∀ a, readByte t .xbuf a = readByte s .xbuf a) ∧
    (i.opcode ∈ [Opcode.xputb, .xputn, .xputd] → ∀ x, s.encoder = some x → ∀ a,
      a < encoderPos x ∨ encoderPos x + charsWritten i ≤ a → readByte t .xbuf a = readByte s .xbuf a) ∧
    (∀ bytes, i = .einput bytes → t.ev = s.ev) ∧
    (i.opcode ∈ [Opcode.xputb, .xputn, .xputd, .xclear] → t.xv = s.xv) ∧
    (t.halt = s.halt → t.fcode = s.fcode ∧ t.finfo = s.finfo) ∧ t.cap = s.cap ∧ t.cmd = s.cmd ∧
    ∃ r, t.rsp = s.rsp ++ [r] ∧ (r.status ≠ .ok →
      t.engine = s.engine ∧ t.midstate = s.midstate ∧ t.digest = s.digest ∧ t.encoder = s.encoder)

/-- The encoder is an independent context (10_state section 11): a command whose row marks none of its state behaves the same
whatever the encoder holds. -/
def Obligations.EncoderIsIndependent : Prop :=
  ∀ (i : Instr) (s : State) (x : Option Encoder), ignoresEncoder i = true → writesEncoder i = false →
    nextState (exec i { s with encoder := x }) = (nextState (exec i s)).map fun t => { t with encoder := x }

/-- The engine is an independent context (10_state section 11, 42_midstate section 4): a command whose row marks none of its state,
MTAG among them, behaves the same whatever the engine holds. -/
def Obligations.EngineIsIndependent : Prop :=
  ∀ (i : Instr) (s : State) (e : Option Engine), ignoresEngine i = true → writesEngine i = false →
    nextState (exec i { s with engine := e }) = (nextState (exec i s)).map fun t => { t with engine := e }

/-! ### Serialization and the Compression Core (spec/20_memory.md, spec/40_compress.md) -/

/-- R65: the byte layout of `SER`. -/
def Obligations.SerializationByteLayout : Prop :=
  ∀ (S : HState) (i : Fin 8) (j : Fin 4), (ser S)[4 * i.val + j.val] = S[i].extractLsb' (24 - 8 * j.val) 8

/-- R66: `DESER` word by word, and both maps are bijections, each the other's inverse. -/
def Obligations.SerializationIsBijective : Prop :=
  (∀ (b : Bytes32) (i : Fin 8),
    (deser b)[i] = be32 b[4 * i.val] b[4 * i.val + 1] b[4 * i.val + 2] b[4 * i.val + 3]) ∧
  (∀ S : HState, deser (ser S) = S) ∧ ∀ b : Bytes32, ser (deser b) = b

/-- R131, R132: choice and majority, bit by bit, with their corner cases and examples. -/
def Obligations.ChoiceAndMajorityBitwise : Prop :=
  (∀ x y z : Word, ch x y z = (x &&& y) ^^^ (~~~x &&& z) ∧
    (∀ i, (ch x y z).getLsbD i = if x.getLsbD i then y.getLsbD i else z.getLsbD i) ∧
    ch 0 y z = z ∧ ch 0xffffffff y z = y ∧ ch x y y = y) ∧
  ch 0x510e527f 0x9b05688c 0x1f83d9ab = 0x1f85c98c ∧
  (∀ x y z : Word, maj x y z = (x &&& y) ^^^ (x &&& z) ^^^ (y &&& z) ∧
    (∀ i, (maj x y z).getLsbD i = decide (2 ≤ (x.getLsbD i).toNat + (y.getLsbD i).toNat + (z.getLsbD i).toNat)) ∧
    maj x x z = x ∧ maj 0 y z = (y &&& z) ∧ maj 0xffffffff y z = (y ||| z) ∧
    maj x y z = maj y x z ∧ maj x y z = maj x z y) ∧
  maj 0x6a09e667 0xbb67ae85 0x3c6ef372 = 0x3a6fe667

/-- R133 to R136: the four sigma functions, bit by bit: a rotation takes bit `i` from bit `(i + n) mod 32`, the shift from bit
`i + n` where there is one; with their corner cases and examples. -/
def Obligations.SigmaFunctionsBitwise : Prop :=
  (∀ (x : Word) (i : Nat), i < 32 →
    (bigSigma0 x).getLsbD i =
      (x.getLsbD ((i + 2) % 32) ^^ x.getLsbD ((i + 13) % 32) ^^ x.getLsbD ((i + 22) % 32)) ∧
    (bigSigma1 x).getLsbD i =
      (x.getLsbD ((i + 6) % 32) ^^ x.getLsbD ((i + 11) % 32) ^^ x.getLsbD ((i + 25) % 32)) ∧
    (smallSigma0 x).getLsbD i =
      (x.getLsbD ((i + 7) % 32) ^^ x.getLsbD ((i + 18) % 32) ^^ (decide (i + 3 < 32) && x.getLsbD (i + 3))) ∧
    (smallSigma1 x).getLsbD i =
      (x.getLsbD ((i + 17) % 32) ^^ x.getLsbD ((i + 19) % 32) ^^ (decide (i + 10 < 32) && x.getLsbD (i + 10)))) ∧
  (bigSigma0 0 = 0 ∧ bigSigma0 0xffffffff = 0xffffffff ∧ bigSigma0 1 = 0x40080400 ∧ bigSigma0 0x6a09e667 = 0xce20b47e) ∧
  (bigSigma1 0 = 0 ∧ bigSigma1 0xffffffff = 0xffffffff ∧ bigSigma1 1 = 0x04200080 ∧ bigSigma1 0x510e527f = 0x3587272b) ∧
  (smallSigma0 0 = 0 ∧ smallSigma0 0xffffffff = 0x1fffffff ∧ smallSigma0 1 = 0x02004000 ∧
    smallSigma0 0x80000000 = 0x11002000) ∧
  (smallSigma1 0 = 0 ∧ smallSigma1 0xffffffff = 0x003fffff ∧ smallSigma1 1 = 0x0000a000 ∧
    smallSigma1 0x80000000 = 0x00205000)

/-- R137: the message schedule has 64 words: the block's sixteen, big-endian, and then the recurrence; the all-zero block gives
zeros. -/
def Obligations.ScheduleFollowsRecurrence : Prop :=
  (∀ B : Block, (schedule B).length = 64 ∧
    (∀ t : Fin 16, (schedule B).getD t.val 0 =
      be32 B[4 * t.val] B[4 * t.val + 1] B[4 * t.val + 2] B[4 * t.val + 3]) ∧
    ∀ t, 16 ≤ t → t < 64 →
      (schedule B).getD t 0 = smallSigma1 ((schedule B).getD (t - 2) 0) + (schedule B).getD (t - 7) 0 +
        smallSigma0 ((schedule B).getD (t - 15) 0) + (schedule B).getD (t - 16) 0) ∧
  ∀ w ∈ schedule (Vector.replicate 64 0), w = 0

/-- R138, R139, R140: `COMPRESS` starts from the state, runs the 64 rounds in order, each on the values at its start, and adds the
result into the state word by word; with the example of one round and the four of the whole function. -/
def Obligations.CompressRunsSixtyFourRounds : Prop :=
  (∀ (S : HState) (B : Block), ∃ v : Nat → Working,
    v 0 = ⟨S[0], S[1], S[2], S[3], S[4], S[5], S[6], S[7]⟩ ∧
    (∀ t, t < 64 →
      let p := v t
      let t1 := p.h + bigSigma1 p.e + ch p.e p.f p.g + kRom.getD t 0 + (schedule B).getD t 0
      let t2 := bigSigma0 p.a + maj p.a p.b p.c
      v (t + 1) = ⟨t1 + t2, p.a, p.b, p.c, p.d + t1, p.e, p.f, p.g⟩ ∧
      v (t + 1) = compressRound p (kRom.getD t 0) ((schedule B).getD t 0)) ∧
    compress S B = #v[S[0] + (v 64).a, S[1] + (v 64).b, S[2] + (v 64).c, S[3] + (v 64).d,
      S[4] + (v 64).e, S[5] + (v 64).f, S[6] + (v 64).g, S[7] + (v 64).h]) ∧
  compressRound (Working.ofState ivRom) (kRom.getD 0 0) 0x80000000 =
    ⟨0x7c08884d, 0x6a09e667, 0xbb67ae85, 0x3c6ef372, 0x18c7e2a2, 0x510e527f, 0x9b05688c, 0x1f83d9ab⟩ ∧
  compress ivRom (block ([0x80] ++ List.replicate 63 0)) =
    #v[0xe3b0c442, 0x98fc1c14, 0x9afbf4c8, 0x996fb924, 0x27ae41e4, 0x649b934c, 0xa495991b, 0x7852b855] ∧
  compress ivRom (Vector.replicate 64 0) =
    #v[0xda5698be, 0x17b9b469, 0x62335799, 0x779fbeca, 0x8ce5d491, 0xc0d26243, 0xbafef9ea, 0x1837a9d8] ∧
  compress (Vector.replicate 8 0) (Vector.replicate 64 0) =
    #v[0x7ca51614, 0x425c3ba8, 0xce54dd2f, 0xc2020ae7, 0xb6e574d1, 0x98136d0f, 0xae7e26cc, 0xbf0be7a6] ∧
  compress (Vector.replicate 8 0xffffffff) (Vector.replicate 64 0xff) =
    #v[0x0598127a, 0xaf11706e, 0x77401fff, 0xd730c549, 0x0b84c867, 0xa98c6ca3, 0xd7f3c0f9, 0x06a78b79]

/-! ### The Hash Engine (spec/41_engine.md) -/

/-- R161: ENEW. -/
def Obligations.EnewCreatesFreshEngine : Prop :=
  encode .enew = [0x10, 0x00, 0x00, 0x00] ∧
  ∀ s : State, s.halt = false →
    exec .enew s = .next (State.answered { s with
      engine := some ⟨#v[0x6a09e667, 0xbb67ae85, 0x3c6ef372, 0xa54ff53a, 0x510e527f, 0x9b05688c, 0x1f83d9ab, 0x5be0cd19],
        [], 0⟩ } [])

/-- R162: EFROMMS; the midstate stays, and one with `MN = 0` and `MB = SER(IV)` gives the engine ENEW gives. -/
def Obligations.EfrommsSeedsEngine : Prop :=
  encode .efromms = [0x11, 0x00, 0x00, 0x00] ∧
  (∀ s : State, s.halt = false → s.midstate = none → exec .efromms s = .next (s.faulted 2 2)) ∧
  (∀ (s : State) (m : Midstate), s.halt = false → s.midstate = some m →
    exec .efromms s = .next (State.answered { s with engine := some ⟨deser m.mb, [], m.mn⟩ } [])) ∧
  ∀ s : State, s.halt = false → s.midstate = some ⟨ser ivRom, 0⟩ → exec .efromms s = exec .enew s

/-- R163: EINPUT in its functional form: with `data = BUF[0..fill) ‖ s` and `k = ⌊|data| / 64⌋`, `H` is `COMPRESS` folded over the
`k` blocks of `data`, the buffer is what remains, and `N` grows by the length. -/
def Obligations.EinputAbsorbsBlocks : Prop :=
  (∀ bytes : List Byte, bytes.length ≤ 65535 →
    encode (.einput bytes) = [0x12, 0x00] ++ bytesBe16 (BitVec.ofNat 16 bytes.length) ++ bytes) ∧
  (∀ (s : State) (bytes : List Byte), s.halt = false → s.engine = none → exec (.einput bytes) s = .next (s.faulted 2 1)) ∧
  (∀ (s : State) (e : Engine) (bytes : List Byte), s.halt = false → s.engine = some e →
    2 ^ 64 - 1 < e.n.toNat + bytes.length → exec (.einput bytes) s = .next (s.faulted 5 e.n)) ∧
  (∀ (s : State) (e : Engine) (bytes : List Byte), s.halt = false → s.engine = some e → e.Inv →
    e.n.toNat + bytes.length ≤ 2 ^ 64 - 1 →
    let data := e.buf ++ bytes
    let k := data.length / 64
    ∃ n : U64, n.toNat = e.n.toNat + bytes.length ∧
      exec (.einput bytes) s = .next (State.answered { s with
        engine := some ⟨(List.range k).foldl (fun S j => compress S (block ((data.drop (64 * j)).take 64))) e.h,
          data.drop (64 * k), n⟩ } []))

/-- R165: any two ways of cutting the same bytes into EINPUT commands leave the same `H`, `BUF` and `N`. -/
def Obligations.EinputIsConcatenative : Prop :=
  ∀ (s : State) (e : Engine) (chunks₁ chunks₂ : List (List Byte)), s.halt = false → s.engine = some e →
    chunks₁.flatten = chunks₂.flatten → e.n.toNat + chunks₁.flatten.length ≤ 2 ^ 64 - 1 →
    ∃ t₁ t₂ e', execAll (chunks₁.map .einput) s = .next t₁ ∧ execAll (chunks₂.map .einput) s = .next t₂ ∧
      t₁.engine = some e' ∧ t₂.engine = some e' ∧ t₁.halt = false ∧ t₂.halt = false

/-- R166: ECANX; it answers `0x01` exactly where EMID would succeed. -/
def Obligations.EcanxReportsBoundary : Prop :=
  encode .ecanx = [0x13, 0x00, 0x00, 0x00] ∧
  (∀ s : State, s.halt = false → s.engine = none → exec .ecanx s = .next (s.faulted 2 1)) ∧
  ∀ (s : State) (e : Engine), s.halt = false → s.engine = some e →
    exec .ecanx s = .next (s.answered [if e.n.toNat % 64 = 0 then 0x01 else 0x00]) ∧
    ((∃ t payload, exec .emid s = .next t ∧ t.rsp = s.rsp ++ [⟨.ok, payload⟩]) ↔ e.n.toNat % 64 = 0)

/-- R167: EMID at a block boundary; the engine is unchanged, and its buffer is empty. -/
def Obligations.EmidExtractsAtBoundary : Prop :=
  encode .emid = [0x14, 0x00, 0x00, 0x00] ∧
  (∀ s : State, s.halt = false → s.engine = none → exec .emid s = .next (s.faulted 2 1)) ∧
  ∀ (s : State) (e : Engine), s.halt = false → s.engine = some e → e.n.toNat % 64 = 0 →
    exec .emid s = .next (State.answered { s with midstate := some ⟨ser e.h, e.n⟩ } ((ser e.h).toList ++ bytesBe64 e.n)) ∧
    (e.Inv → e.buf = [])

/-- R168: EMID off a boundary answers `ERR_BOUNDARY` with `N` and changes no state; the block is not halted. -/
def Obligations.EmidOffBoundaryIsRecoverable : Prop :=
  ∀ (s : State) (e : Engine), s.halt = false → s.engine = some e → e.n.toNat % 64 ≠ 0 →
    exec .emid s = .next { s with rsp := s.rsp ++ [⟨.errBoundary, bytesBe64 e.n⟩] }

/-- R173: at a boundary, EMID and then EFROMMS leave exactly the engine there was. -/
def Obligations.ResumptionRestoresEngine : Prop :=
  ∀ (s : State) (e : Engine), s.halt = false → s.engine = some e → e.Inv → e.n.toNat % 64 = 0 →
    ∃ t, execAll [.emid, .efromms] s = .next t ∧ t.engine = some e ∧ t.halt = false ∧
      t.midstate = some ⟨ser e.h, e.n⟩ ∧ t.digest = s.digest ∧ t.encoder = s.encoder

/-- R169: the padding. -/
def Obligations.PaddingShape : Prop :=
  ∀ n : Nat, n < 2 ^ 61 → ∃ z : Nat, z ≤ 63 ∧ (z : Int) = (55 - (n : Int)) % 64 ∧
    padding n = [0x80] ++ List.replicate z 0 ++ bytesBe64 (BitVec.ofNat 64 (8 * n)) ∧
    (BitVec.ofNat 64 (8 * n)).toNat = 8 * n ∧
    (padding n).length = z + 9 ∧ (n + (padding n).length) % 64 = 0 ∧
    (n % 64 ≤ 55 → z = 55 - n % 64 ∧ (padding n).length = 64 - n % 64) ∧
    (56 ≤ n % 64 → z = 119 - n % 64 ∧ (padding n).length = 128 - n % 64)

/-- R170, R172: EFINAL. With `r = N mod 64` and `L = bytes_be64(8N)` it compresses one block when `r ≤ 55` and two when `r ≥ 56`,
answers and latches the digest, and consumes the engine. -/
def Obligations.EfinalPadsCompressesAndConsumes : Prop :=
  encode .efinal = [0x15, 0x00, 0x00, 0x00] ∧
  (∀ s : State, s.halt = false → s.engine = none → exec .efinal s = .next (s.faulted 2 1)) ∧
  (∀ (s : State) (e : Engine), s.halt = false → s.engine = some e → 2 ^ 61 ≤ e.n.toNat →
    exec .efinal s = .next (s.faulted 5 e.n)) ∧
  ∀ (s : State) (e : Engine), s.halt = false → s.engine = some e → e.Inv → e.n.toNat < 2 ^ 61 →
    let r := e.n.toNat % 64
    let len := bytesBe64 (BitVec.ofNat 64 (8 * e.n.toNat))
    ∃ S : HState,
      (r ≤ 55 → S = compress e.h (block (e.buf ++ [0x80] ++ List.replicate (55 - r) 0 ++ len))) ∧
      (56 ≤ r → S = compress (compress e.h (block (e.buf ++ [0x80] ++ List.replicate (63 - r) 0)))
        (block (List.replicate 56 0 ++ len))) ∧
      exec .efinal s =
        .next (State.answered { s with engine := none, digest := some (ser S) } (ser S).toList)

/-- R164, R171: EINPUT faults where the count would pass `2^64 - 1`, EFINAL where the bit length does not fit 64 bits; each does
nothing else. -/
def Obligations.LengthFaults : Prop :=
  ∀ (s : State) (e : Engine), s.halt = false → s.engine = some e →
    (∀ bytes : List Byte, 2 ^ 64 - 1 < e.n.toNat + bytes.length → exec (.einput bytes) s = .next (s.faulted 5 e.n)) ∧
    (2 ^ 61 ≤ e.n.toNat → exec .efinal s = .next (s.faulted 5 e.n))

/-- R174: `SHA256(msg)` folds `COMPRESS` over the `m ≥ 1` blocks of `msg ‖ PAD(|msg|)`, from `IV`, and serializes. -/
def Obligations.Sha256FoldsPaddedBlocks : Prop :=
  ∀ msg : List Byte, msg.length < 2 ^ 61 → ∃ m : Nat, 1 ≤ m ∧ (msg ++ padding msg.length).length = 64 * m ∧
    sha256 msg = ser ((List.range m).foldl
      (fun S j => compress S (block (((msg ++ padding msg.length).drop (64 * j)).take 64))) ivRom)

/-- R175: the streaming path computes `SHA256`, for every message and every split into chunks: the last response and the digest
register. -/
def Obligations.StreamingComputesSha256 : Prop :=
  ∀ (s : State) (chunks : List (List Byte)), s.halt = false → (∀ c ∈ chunks, c.length ≤ 65535) →
    chunks.flatten.length < 2 ^ 61 →
    ∃ t, execAll ([.enew] ++ chunks.map .einput ++ [.efinal]) s = .next t ∧ t.halt = false ∧
      t.digest = some (sha256 chunks.flatten) ∧ t.rsp.getLast? = some ⟨.ok, (sha256 chunks.flatten).toList⟩

/-! ### The midstate (spec/42_midstate.md) -/

/-- R190, R191: MNEW builds the midstate where the count is aligned; where it is not it faults, and a midstate held before
survives. -/
def Obligations.MnewBuildsAlignedMidstate : Prop :=
  (∀ bytes n, encode (.mnew bytes n) = [0x20, 0x00, 0x00, 0x00] ++ bytes.toList ++ bytesBe64 n) ∧
  ∀ (s : State) (bytes : Bytes32) (n : U64), s.halt = false →
    (n.toNat % 64 = 0 →
      exec (.mnew bytes n) s = .next (State.answered { s with midstate := some ⟨bytes, n⟩ } [])) ∧
    (n.toNat % 64 ≠ 0 → exec (.mnew bytes n) s = .next (s.faulted 3 n))

/-- R193: MPARTS; replaying its response through MNEW reproduces the register. -/
def Obligations.MpartsReturnsParts : Prop :=
  encode .mparts = [0x21, 0x00, 0x00, 0x00] ∧
  (∀ s : State, s.halt = false → s.midstate = none → exec .mparts s = .next (s.faulted 2 2)) ∧
  (∀ (s : State) (m : Midstate), s.halt = false → s.midstate = some m →
    exec .mparts s = .next (s.answered (m.mb.toList ++ bytesBe64 m.mn))) ∧
  ∀ (m : Midstate) (rest : List Byte) (s : State), s.halt = false → m.Inv →
    (∃ t, exec (.mnew m.mb m.mn) s = .next t ∧ t.midstate = some m) ∧
    decode ([0x20, 0x00, 0x00, 0x00] ++ (m.mb.toList ++ bytesBe64 m.mn) ++ rest) = .packet (.mnew m.mb m.mn) rest

/-- R195, R196: MTAG, with `T = SHA256(tag)`; the same midstate as EMID returns after ENEW and EINPUT of `T ‖ T`. The engine and the
digest register are as they were. -/
def Obligations.MtagBuildsTagMidstate : Prop :=
  (∀ tag : List Byte, tag.length ≤ 65535 →
    encode (.mtag tag) = [0x22, 0x00] ++ bytesBe16 (BitVec.ofNat 16 tag.length) ++ tag) ∧
  ∀ (s : State) (tag : List Byte), s.halt = false →
    let tt := (sha256 tag).toList ++ (sha256 tag).toList
    let mb := ser (compress ivRom (block tt))
    exec (.mtag tag) s = .next (State.answered { s with midstate := some ⟨mb, 64⟩ } (mb.toList ++ bytesBe64 64)) ∧
    ∃ t, execAll [.enew, .einput tt, .emid] s = .next t ∧ t.midstate = some ⟨mb, 64⟩ ∧
      t.rsp.getLast? = some ⟨.ok, mb.toList ++ bytesBe64 64⟩

/-- R197: tag composition, for every split of the message. -/
def Obligations.TagComposition : Prop :=
  ∀ (s : State) (tag : List Byte) (chunks : List (List Byte)), s.halt = false → tag.length ≤ 65535 →
    (∀ c ∈ chunks, c.length ≤ 65535) → 64 + chunks.flatten.length < 2 ^ 61 →
    let dg := sha256 ((sha256 tag).toList ++ (sha256 tag).toList ++ chunks.flatten)
    ∃ t, execAll ([.mtag tag, .efromms] ++ chunks.map .einput ++ [.efinal]) s = .next t ∧ t.halt = false ∧
      t.digest = some dg ∧ t.rsp.getLast? = some ⟨.ok, dg.toList⟩

/-- R109: the expansions of the six pseudo-commands; the packets of INPUT carry its bytes, in order; each part has a response of its
own; and once the block is halted, by a part of the expansion or before it, every later part is refused. -/
def Obligations.PseudoCommandsExpand : Prop :=
  (∀ s : List Byte, (s.length ≤ 65535 → expandPseudo (.input s) = [.einput s]) ∧
    (65535 < s.length → expandPseudo (.input s) = .einput (s.take 65535) :: expandPseudo (.input (s.drop 65535))) ∧
    ∃ chunks : List (List Byte), expandPseudo (.input s) = chunks.map .einput ∧ chunks.flatten = s ∧
      ∀ c ∈ chunks, c.length ≤ 65535) ∧
  (∀ s, expandPseudo (.sha256 s) = [.enew] ++ expandPseudo (.input s) ++ [.efinal]) ∧
  (∀ tag msg, expandPseudo (.tagged tag msg) = [.mtag tag, .efromms] ++ expandPseudo (.input msg) ++ [.efinal]) ∧
  (∀ bytes n s, expandPseudo (.resume bytes n s) = [.mnew bytes n, .efromms] ++ expandPseudo (.input s)) ∧
  (∀ c, expandPseudo (.dhex c) = [.xclear, .xputd c, .xstr]) ∧
  (∀ s c, expandPseudo (.hex s c) = [.xclear, .xputn s c, .xstr]) ∧
  (∀ (p : Pseudo) (s : State), ∃ t rs, execAll (expandPseudo p) s = .next t ∧ t.rsp = s.rsp ++ rs ∧
    rs.length = (expandPseudo p).length) ∧
  ∀ (p : Pseudo) (pre post : List Instr) (s u : State), expandPseudo p = pre ++ post → execAll pre s = .next u → u.halt = true →
    execAll (expandPseudo p) s = .next { u with rsp := u.rsp ++ List.replicate post.length ⟨.halted, []⟩ }

/-! ### The Buffered Hex Encoder (spec/43_hexenc.md) -/

/-- R211: the two digits of a byte, high nibble first; digits 0 to 9 are the same in both cases. -/
def Obligations.HexpairDigits : Prop :=
  (∀ v : Byte, hexPair v .lower = [hexLoRom[(v.extractLsb' 4 4).toNat], hexLoRom[(v.extractLsb' 0 4).toNat]] ∧
    hexPair v .upper = [hexUpRom[(v.extractLsb' 4 4).toNat], hexUpRom[(v.extractLsb' 0 4).toNat]]) ∧
  (∀ d : Fin 16, d.val ≤ 9 → hexLoRom[d] = hexUpRom[d] ∧ hexLoRom[d].toNat = 0x30 + d.val) ∧
  ∀ d : Fin 16, 10 ≤ d.val → hexLoRom[d].toNat = 0x61 + (d.val - 10) ∧ hexUpRom[d].toNat = 0x41 + (d.val - 10)

/-- R221: the encoding is injective for a fixed case, and one decoder recovers the byte from either case. -/
def Obligations.HexpairCanBeDecoded : Prop :=
  (∀ (v v' : Byte) (c : Case), hexPair v c = hexPair v' c → v = v') ∧
  ∃ decoder : List Byte → Option Byte, ∀ (v : Byte) (c : Case), decoder (hexPair v c) = some v

/-- R214, R224: XNEW creates the encoder, or empties the one there is; XCLEAR needs one and empties it. -/
def Obligations.XnewAndXclearEmptyEncoder : Prop :=
  encode .xnew = [0x40, 0x00, 0x00, 0x00] ∧ encode .xclear = [0x45, 0x00, 0x00, 0x00] ∧
  (∀ s : State, s.halt = false → exec .xnew s = .next (State.answered { s with encoder := some ⟨[]⟩ } [])) ∧
  (∀ s : State, s.halt = false → s.encoder = none → exec .xclear s = .next (s.faulted 2 4)) ∧
  ∀ (s : State) (x : Encoder), s.halt = false → s.encoder = some x →
    exec .xclear s = .next (State.answered { s with encoder := some ⟨[]⟩ } [])

/-- R213: the capacity check, before any write: XPUTB, XPUTN and XPUTD fault and write nothing where `2·k > CAP - POS`, and write
every character where the `k` bytes fit. -/
def Obligations.PutChecksCapacityThenWrites : Prop :=
  ∀ (s : State) (x : Encoder) (c : Case), s.halt = false → s.encoder = some x → x.xbuf.length ≤ s.cap.size →
    (∀ b, s.cap.size < x.xbuf.length + 2 → exec (.xputb b c) s = .next (s.faulted 4 1)) ∧
    (∀ bytes, s.cap.size < x.xbuf.length + 2 * bytes.length →
      exec (.xputn bytes c) s = .next (s.faulted 4 (BitVec.ofNat 64 bytes.length))) ∧
    (∀ d, s.digest = some d → s.cap.size < x.xbuf.length + 64 → exec (.xputd c) s = .next (s.faulted 4 32)) ∧
    (∀ b, x.xbuf.length + 2 ≤ s.cap.size → exec (.xputb b c) s =
      .next (State.answered { s with encoder := some ⟨x.xbuf ++ hexPair b c⟩ } [])) ∧
    (∀ bytes, x.xbuf.length + 2 * bytes.length ≤ s.cap.size → exec (.xputn bytes c) s =
      .next (State.answered { s with encoder := some ⟨x.xbuf ++ bytes.flatMap fun b => hexPair b c⟩ } [])) ∧
    (∀ d, s.digest = some d → x.xbuf.length + 64 ≤ s.cap.size → exec (.xputd c) s =
      .next (State.answered { s with encoder := some ⟨x.xbuf ++ d.toList.flatMap fun b => hexPair b c⟩ } []))

/-- R212: XPUTB. On an encoder that meets the invariant the capacity fault is taken exactly when the buffer is full. -/
def Obligations.XputbEncodesOneByte : Prop :=
  (∀ b : Byte, encode (.xputb b .lower) = [0x41, 0x00, 0x00, b] ∧ encode (.xputb b .upper) = [0x41, 0x01, 0x00, b]) ∧
  (∀ (s : State) (b : Byte) (c : Case), s.halt = false → s.encoder = none → exec (.xputb b c) s = .next (s.faulted 2 4)) ∧
  ∀ (s : State) (x : Encoder) (b : Byte) (c : Case), s.halt = false → s.encoder = some x → x.Inv s.cap →
    (x.xbuf.length = s.cap.size → exec (.xputb b c) s = .next (s.faulted 4 1)) ∧
    (x.xbuf.length ≠ s.cap.size →
      exec (.xputb b c) s = .next (State.answered { s with encoder := some ⟨x.xbuf ++ hexPair b c⟩ } []))

/-- R215: XPUTN where the sequence fits: the `2k` characters, byte 0 first, after the text there was. -/
def Obligations.XputnEncodesBytes : Prop :=
  (∀ bytes : List Byte, bytes.length ≤ 65535 →
    encode (.xputn bytes .lower) = [0x42, 0x00] ++ bytesBe16 (BitVec.ofNat 16 bytes.length) ++ bytes ∧
    encode (.xputn bytes .upper) = [0x42, 0x01] ++ bytesBe16 (BitVec.ofNat 16 bytes.length) ++ bytes) ∧
  (∀ (s : State) (bytes : List Byte) (c : Case), s.halt = false → s.encoder = none →
    exec (.xputn bytes c) s = .next (s.faulted 2 4)) ∧
  (∀ (s : State) (x : Encoder) (bytes : List Byte) (c : Case), s.halt = false → s.encoder = some x →
    s.cap.size - x.xbuf.length < 2 * bytes.length →
    exec (.xputn bytes c) s = .next (s.faulted 4 (BitVec.ofNat 64 bytes.length))) ∧
  ∀ (s : State) (x : Encoder) (bytes : List Byte) (c : Case), s.halt = false → s.encoder = some x →
    x.xbuf.length + 2 * bytes.length ≤ s.cap.size →
    exec (.xputn bytes c) s = .next (State.answered { s with
      encoder := some ⟨x.xbuf ++ bytes.flatMap fun b => hexPair b c⟩ } [])

/-- R216: where the sequence fits, XPUTN gives the encoder that its bytes give one by one through XPUTB; where it does not, XPUTN
writes nothing, while the XPUTB commands write until the buffer is full and then fault. -/
def Obligations.XputnIsAllOrNothing : Prop :=
  ∀ (s : State) (x : Encoder) (bytes : List Byte) (c : Case), s.halt = false → s.encoder = some x → x.Inv s.cap →
    (2 * bytes.length ≤ s.cap.size - x.xbuf.length →
      ∃ t₁ t₂ y, exec (.xputn bytes c) s = .next t₁ ∧ execAll (bytes.map fun b => .xputb b c) s = .next t₂ ∧
        t₁.encoder = some y ∧ t₂.encoder = some y ∧ t₁.halt = false ∧ t₂.halt = false) ∧
    (s.cap.size - x.xbuf.length < 2 * bytes.length →
      exec (.xputn bytes c) s = .next (s.faulted 4 (BitVec.ofNat 64 bytes.length)) ∧
      ∃ t y, execAll (bytes.map fun b => .xputb b c) s = .next t ∧ t.halt = true ∧ t.fcode = 4 ∧ t.finfo = 1 ∧
        t.encoder = some y ∧ y.xbuf.length = s.cap.size ∧
        y.xbuf = x.xbuf ++ (bytes.take ((s.cap.size - x.xbuf.length) / 2)).flatMap fun b => hexPair b c)

/-- R217: XPUTD is XPUTN of the digest bytes, with the digest looked for before the encoder. -/
def Obligations.XputdEncodesDigest : Prop :=
  (encode (.xputd .lower) = [0x46, 0x00, 0x00, 0x00] ∧ encode (.xputd .upper) = [0x46, 0x01, 0x00, 0x00]) ∧
  (∀ (s : State) (c : Case), s.halt = false → s.digest = none → exec (.xputd c) s = .next (s.faulted 2 3)) ∧
  (∀ (s : State) (d : Bytes32) (c : Case), s.halt = false → s.digest = some d →
    exec (.xputd c) s = exec (.xputn d.toList c) s ∧
    (s.encoder = none → exec (.xputd c) s = .next (s.faulted 2 4)) ∧
    ∀ x : Encoder, s.encoder = some x →
      (s.cap.size - x.xbuf.length < 64 → exec (.xputd c) s = .next (s.faulted 4 32)) ∧
      (64 ≤ s.cap.size - x.xbuf.length → exec (.xputd c) s = .next (State.answered { s with
        encoder := some ⟨x.xbuf ++ d.toList.flatMap fun b => hexPair b c⟩ } [])))

/-- R218: XFULL. -/
def Obligations.XfullReportsFull : Prop :=
  encode .xfull = [0x43, 0x00, 0x00, 0x00] ∧
  (∀ s : State, s.halt = false → s.encoder = none → exec .xfull s = .next (s.faulted 2 4)) ∧
  ∀ (s : State) (x : Encoder), s.halt = false → s.encoder = some x →
    exec .xfull s = .next (s.answered [if x.xbuf.length = s.cap.size then 0x01 else 0x00])

/-- R219: XSTR. -/
def Obligations.XstrReturnsText : Prop :=
  encode .xstr = [0x44, 0x00, 0x00, 0x00] ∧
  (∀ s : State, s.halt = false → s.encoder = none → exec .xstr s = .next (s.faulted 2 4)) ∧
  ∀ (s : State) (x : Encoder), s.halt = false → s.encoder = some x → exec .xstr s = .next (s.answered x.xbuf)

/-- R220: on a state that meets the invariant, the text XSTR returns is hex digits only and of even length. -/
def Obligations.XstrTextIsHexDigits : Prop :=
  ∀ (s : State) (x : Encoder), s.Inv → s.halt = false → s.encoder = some x →
    ∃ text, exec .xstr s = .next (s.answered text) ∧ text.length % 2 = 0 ∧
      ∀ b ∈ text, b ∈ ([0x30, 0x31, 0x32, 0x33, 0x34, 0x35, 0x36, 0x37, 0x38, 0x39, 0x61, 0x62, 0x63, 0x64, 0x65, 0x66,
        0x41, 0x42, 0x43, 0x44, 0x45, 0x46] : List Byte)

/-! ### System and digest (spec/44_system.md) -/

/-- R240: SSTAT, on every block, halted or not. -/
def Obligations.SstatReportsStatus : Prop :=
  encode .sstat = [0x01, 0x00, 0x00, 0x00] ∧
  ∀ s : State, ∃ st : Byte, exec .sstat s = .next (s.answered (st :: s.fcode :: bytesBe64 s.finfo)) ∧
    st.getLsbD 0 = s.halt ∧ st.getLsbD 1 = s.engine.isSome ∧ st.getLsbD 2 = s.midstate.isSome ∧
    st.getLsbD 3 = s.digest.isSome ∧ st.getLsbD 4 = s.encoder.isSome ∧ st.toNat < 32

/-- R242: DREAD. -/
def Obligations.DreadReturnsDigest : Prop :=
  encode .dread = [0x30, 0x00, 0x00, 0x00] ∧
  (∀ s : State, s.halt = false → s.digest = none → exec .dread s = .next (s.faulted 2 3)) ∧
  ∀ (s : State) (d : Bytes32), s.halt = false → s.digest = some d → exec .dread s = .next (s.answered d.toList)

/-- 30_encoding section 6: the bytes of the response stream are the packets back to back, each status, 16-bit big-endian length
and payload; on a state that meets the invariant every length fits. -/
def Obligations.ResponsesFitTheirPackets : Prop :=
  ∀ (s t : State), s.Inv → step s = .next t → ∃ r : Response,
    responseStream t = responseStream s ++ (statusCode r.status :: (bytesBe16 (BitVec.ofNat 16 r.payload.length) ++ r.payload)) ∧
    (BitVec.ofNat 16 r.payload.length).toNat = r.payload.length ∧
    statusCode r.status ∈ ([0x00, 0x01, 0xFE, 0xFF] : List Byte)

/-! ### The ROMs (spec/20_memory.md section 2) -/

/-- 20_memory section 2: the 8 words of `IV` and the 64 of `K`, and what they are: the first 32 bits of the fractional parts of the
square and cube roots of the first primes (`m` is the root's integer part with 32 bits of its fraction). That these are the constants
is general knowledge, by the spec's own mark: log entry 9. -/
def Obligations.RomsHoldPrimeRoots : Prop :=
  ivRom = #v[0x6a09e667, 0xbb67ae85, 0x3c6ef372, 0xa54ff53a, 0x510e527f, 0x9b05688c, 0x1f83d9ab, 0x5be0cd19] ∧
  kRom =
    [0x428a2f98, 0x71374491, 0xb5c0fbcf, 0xe9b5dba5] ++ [0x3956c25b, 0x59f111f1, 0x923f82a4, 0xab1c5ed5] ++
    [0xd807aa98, 0x12835b01, 0x243185be, 0x550c7dc3] ++ [0x72be5d74, 0x80deb1fe, 0x9bdc06a7, 0xc19bf174] ++
    [0xe49b69c1, 0xefbe4786, 0x0fc19dc6, 0x240ca1cc] ++ [0x2de92c6f, 0x4a7484aa, 0x5cb0a9dc, 0x76f988da] ++
    [0x983e5152, 0xa831c66d, 0xb00327c8, 0xbf597fc7] ++ [0xc6e00bf3, 0xd5a79147, 0x06ca6351, 0x14292967] ++
    [0x27b70a85, 0x2e1b2138, 0x4d2c6dfc, 0x53380d13] ++ [0x650a7354, 0x766a0abb, 0x81c2c92e, 0x92722c85] ++
    [0xa2bfe8a1, 0xa81a664b, 0xc24b8b70, 0xc76c51a3] ++ [0xd192e819, 0xd6990624, 0xf40e3585, 0x106aa070] ++
    [0x19a4c116, 0x1e376c08, 0x2748774c, 0x34b0bcb5] ++ [0x391c0cb3, 0x4ed8aa4a, 0x5b9cca4f, 0x682e6ff3] ++
    [0x748f82ee, 0x78a5636f, 0x84c87814, 0x8cc70208] ++ [0x90befffa, 0xa4506ceb, 0xbef9a3f7, 0xc67178f2] ∧
  (∀ i : Fin 8, ∃ m : Nat, m ^ 2 ≤ Nat.nth Nat.Prime i * 2 ^ 64 ∧ Nat.nth Nat.Prime i * 2 ^ 64 < (m + 1) ^ 2 ∧
    ivRom[i].toNat = m % 2 ^ 32) ∧
  kRom.length = 64 ∧
  ∀ t : Nat, t < 64 → ∃ m : Nat, m ^ 3 ≤ Nat.nth Nat.Prime t * 2 ^ 96 ∧ Nat.nth Nat.Prime t * 2 ^ 96 < (m + 1) ^ 3 ∧
    (kRom.getD t 0).toNat = m % 2 ^ 32
end

