-- ==== Sys2Proof/Laws/Bytes.lean ====
section
/-! SUPPORT. Byte order: assembling and taking apart are inverse (spec/00_scope.md R11). Memory: a read after a write gives the
value written, a write leaves every other place alone, and writing at the end extends the meaningful prefix (spec/20_memory.md R61). -/

namespace Sys2Proof.Machine

/-! ### Byte order -/

@[simp] theorem length_bytesBe32 (w : Word) : (bytesBe32 w).length = 4 := rfl
@[simp] theorem length_bytesBe16 (v : BitVec 16) : (bytesBe16 v).length = 2 := rfl
@[simp] theorem length_bytesBe64 (n : U64) : (bytesBe64 n).length = 8 := rfl

theorem getLsbD_be32 (b0 b1 b2 b3 : Byte) (i : Nat) :
    (be32 b0 b1 b2 b3).getLsbD i =
      if i < 8 then b3.getLsbD i else if i < 16 then b2.getLsbD (i - 8)
      else if i < 24 then b1.getLsbD (i - 16) else b0.getLsbD (i - 24) := by
  simp only [be32, BitVec.getLsbD_append]
  by_cases h8 : i < 8
  · simp [h8]
  · by_cases h16 : i < 16
    · have : i - 8 < 8 := by omega
      simp [h8, h16, this]
    · by_cases h24 : i < 24
      · have h1 : ¬ i - 8 < 8 := by omega
        have h2 : i - 8 - 8 < 8 := by omega
        have h3 : i - 8 - 8 = i - 16 := by omega
        simp only [h8, h1, h2, h16, h24, if_false, if_true]
        rw [h3]
      · have h1 : ¬ i - 8 < 8 := by omega
        have h2 : ¬ i - 8 - 8 < 8 := by omega
        have h3 : i - 8 - 8 - 8 = i - 24 := by omega
        simp only [h8, h1, h2, h16, h24, if_false]
        rw [h3]

/-- Assembling the bytes of a word gives the word. -/
theorem be32_bytes (w : Word) :
    be32 (w.extractLsb' 24 8) (w.extractLsb' 16 8) (w.extractLsb' 8 8) (w.extractLsb' 0 8) = w := by
  apply BitVec.eq_of_getLsbD_eq
  intro i hi
  rw [getLsbD_be32]
  simp only [BitVec.getLsbD_extractLsb']
  split
  · simp [*]
  · split
    · have h : i - 8 < 8 := by omega
      have h' : 8 + (i - 8) = i := by omega
      simp [h, h']
    · split
      · have h : i - 16 < 8 := by omega
        have h' : 16 + (i - 16) = i := by omega
        simp [h, h']
      · have h : i - 24 < 8 := by omega
        have h' : 24 + (i - 24) = i := by omega
        simp [h, h']

/-- The bytes of an assembled word are the bytes it was assembled from. -/
theorem bytesBe32_be32 (b0 b1 b2 b3 : Byte) : bytesBe32 (be32 b0 b1 b2 b3) = [b0, b1, b2, b3] := by
  simp only [bytesBe32, List.cons.injEq, and_true]
  refine ⟨?_, ?_, ?_, ?_⟩ <;>
    · apply BitVec.eq_of_getLsbD_eq
      intro i hi
      rw [BitVec.getLsbD_extractLsb', getLsbD_be32]
      have e1 : 8 + i - 8 = i := by omega
      have e2 : 16 + i - 16 = i := by omega
      have e3 : 24 + i - 24 = i := by omega
      have n1 : ¬ 8 + i < 8 := by omega
      have n2 : ¬ 16 + i < 8 := by omega
      have n3 : ¬ 16 + i < 16 := by omega
      have n4 : ¬ 24 + i < 8 := by omega
      have n5 : ¬ 24 + i < 16 := by omega
      have n6 : ¬ 24 + i < 24 := by omega
      have l1 : 8 + i < 16 := by omega
      have l2 : 16 + i < 24 := by omega
      simp [hi, e1, e2, e3, n1, n2, n3, n4, n5, n6, l1, l2]

/-- `be64` is the inverse of `bytes_be64`. -/
theorem be64_bytesBe64 (n : U64) : be64 (bytesBe64 n) = n := by
  apply BitVec.eq_of_getLsbD_eq
  intro i hi
  simp only [be64, bytesBe64, List.foldl_cons, List.foldl_nil, BitVec.getLsbD_or, BitVec.getLsbD_shiftLeft,
    BitVec.getLsbD_setWidth, BitVec.getLsbD_extractLsb']
  obtain ⟨q, r, hr, rfl⟩ : ∃ q r, r < 8 ∧ i = 8 * q + r := ⟨i / 8, i % 8, by omega, by omega⟩
  have hq : q < 8 := by omega
  interval_cases q <;> interval_cases r <;> simp

/-- `bytes_be64` is the inverse of `be64` on eight bytes. -/
theorem bytesBe64_be64 (b0 b1 b2 b3 b4 b5 b6 b7 : Byte) :
    bytesBe64 (be64 [b0, b1, b2, b3, b4, b5, b6, b7]) = [b0, b1, b2, b3, b4, b5, b6, b7] := by
  simp only [bytesBe64, be64, List.foldl_cons, List.foldl_nil, List.cons.injEq, and_true]
  refine ⟨?_, ?_, ?_, ?_, ?_, ?_, ?_, ?_⟩ <;>
    · apply BitVec.eq_of_getLsbD_eq
      intro i hi
      interval_cases i <;> simp

/-! ### Fixed-length sequences -/

@[simp] theorem getElem_bytes32 (l : List Byte) (i : Nat) (h : i < 32) : (bytes32 l)[i] = l.getD i 0 := by
  simp [bytes32]

@[simp] theorem getElem_block (l : List Byte) (i : Nat) (h : i < 64) : (block l)[i] = l.getD i 0 := by
  simp [block]

/-- Thirty-two bytes made from the list of thirty-two bytes are those bytes. -/
@[simp] theorem bytes32_toList (v : Bytes32) : bytes32 v.toList = v := by
  apply Vector.ext
  intro i hi
  rw [getElem_bytes32 _ _ hi, List.getD_eq_getElem _ _ (by simpa using hi)]
  simp

theorem toList_bytes32 (l : List Byte) (h : l.length = 32) : (bytes32 l).toList = l := by
  apply List.ext_getElem
  · simp [h]
  · intro i h1 h2
    rw [Vector.getElem_toList, getElem_bytes32, List.getD_eq_getElem _ _ h2]

/-! ### Memory -/

@[simp] theorem memRead_all (mem : List Byte) : memRead mem 0 mem.length = mem := by simp [memRead]

theorem length_memRead (mem : List Byte) (a n : Nat) (h : a + n ≤ mem.length) : (memRead mem a n).length = n := by
  simp only [memRead, List.length_take, List.length_drop]
  omega

/-- Writing at the first location that holds no value extends the prefix by the bytes written. -/
@[simp] theorem memWrite_end (mem v : List Byte) : memWrite mem mem.length v = mem ++ v := by simp [memWrite]

/-- A write inside what is held, or at its end, changes no length but by what it adds. -/
theorem length_memWrite (mem v : List Byte) (a : Nat) (h : a ≤ mem.length) :
    (memWrite mem a v).length = max mem.length (a + v.length) := by
  simp only [memWrite, List.length_append, List.length_take, List.length_drop]
  omega

/-- A read of the place written gives the value written. -/
theorem memRead_memWrite (mem v : List Byte) (a : Nat) (h : a ≤ mem.length) :
    memRead (memWrite mem a v) a v.length = v := by
  have hl : (mem.take a).length = a := by simp [h]
  simp only [memRead, memWrite, List.append_assoc]
  rw [List.drop_append_of_le_length (by omega), List.drop_of_length_le (by omega)]
  simp

/-- A write leaves every byte outside the place written alone. -/
theorem getElem?_memWrite_outside (mem v : List Byte) (a i : Nat) (h : a ≤ mem.length)
    (hi : i < a ∨ a + v.length ≤ i) : (memWrite mem a v)[i]? = mem[i]? := by
  have hl : (mem.take a).length = a := by simp [h]
  simp only [memWrite, List.append_assoc]
  rcases hi with hi | hi
  · rw [List.getElem?_append_left (by omega), List.getElem?_take_of_lt hi]
  · rw [List.getElem?_append_right (by omega), List.getElem?_append_right (by omega), List.getElem?_drop]
    congr 1
    omega

/-- Reading the first of two sequences laid back to back. -/
theorem memRead_append_left {a b : List Byte} {n : Nat} (h : a.length = n) : memRead (a ++ b) 0 n = a := by
  subst h
  simp [memRead]

/-- Reading the second of two sequences laid back to back. -/
theorem memRead_append_right {a b : List Byte} {n m : Nat} (ha : a.length = n) (hb : b.length = m) :
    memRead (a ++ b) n m = b := by
  subst ha hb
  simp [memRead]

end Sys2Proof.Machine
end

