-- ==== Sys2Proof/Laws/Decode.lean ====
section
/-! SUPPORT. The fields of a header and the opcodes (spec/30_encoding.md R92, R96): taking a header's fields apart is the inverse of
making it from them. -/

namespace Sys2Proof

open Sys2Proof.Machine

/-! ### Fields of a header made from fields -/

/-- Bits of a header made from its four fields. -/
theorem getLsbD_fields (op : Byte) (rsv : BitVec 7) (c : BitVec 1) (arg : BitVec 16) (i : Nat) :
    (op ++ rsv ++ c ++ arg).getLsbD i =
      if i < 16 then arg.getLsbD i else if i < 17 then c.getLsbD (i - 16)
      else if i < 24 then rsv.getLsbD (i - 17) else op.getLsbD (i - 24) := by
  simp only [BitVec.getLsbD_append]
  by_cases h16 : i < 16
  · simp [h16]
  · by_cases h17 : i < 17
    · have : i - 16 < 1 := by omega
      simp [h16, h17, this]
    · by_cases h24 : i < 24
      · have h1 : ¬ i - 16 < 1 := by omega
        have h2 : i - 16 - 1 < 7 := by omega
        have h3 : i - 16 - 1 = i - 17 := by omega
        simp only [h16, h17, h24, h1, h2, if_false, if_true]
        rw [h3]
      · have h1 : ¬ i - 16 < 1 := by omega
        have h2 : ¬ i - 16 - 1 < 7 := by omega
        have h3 : i - 16 - 1 - 7 = i - 24 := by omega
        simp only [h16, h17, h24, h1, h2, if_false]
        rw [h3]

@[simp] theorem hdrOp_fields (op : Byte) (rsv : BitVec 7) (c : BitVec 1) (arg : BitVec 16) :
    hdrOp (op ++ rsv ++ c ++ arg) = op := by
  apply BitVec.eq_of_getLsbD_eq
  intro i hi
  rw [hdrOp, BitVec.getLsbD_extractLsb', getLsbD_fields]
  have h1 : ¬ 24 + i < 16 := by omega
  have h2 : ¬ 24 + i < 17 := by omega
  have h3 : ¬ 24 + i < 24 := by omega
  have h4 : 24 + i - 24 = i := by omega
  simp [hi, h1, h2, h3, h4]

@[simp] theorem hdrRsv_fields (op : Byte) (rsv : BitVec 7) (c : BitVec 1) (arg : BitVec 16) :
    hdrRsv (op ++ rsv ++ c ++ arg) = rsv := by
  apply BitVec.eq_of_getLsbD_eq
  intro i hi
  rw [hdrRsv, BitVec.getLsbD_extractLsb', getLsbD_fields]
  have h1 : ¬ 17 + i < 16 := by omega
  have h2 : ¬ 17 + i < 17 := by omega
  have h3 : 17 + i < 24 := by omega
  have h4 : 17 + i - 17 = i := by omega
  simp [hi, h1, h2, h3, h4]

@[simp] theorem hdrC_fields (op : Byte) (rsv : BitVec 7) (c : BitVec 1) (arg : BitVec 16) :
    hdrC (op ++ rsv ++ c ++ arg) = c.getLsbD 0 := by
  rw [hdrC, getLsbD_fields]
  simp

@[simp] theorem hdrArg_fields (op : Byte) (rsv : BitVec 7) (c : BitVec 1) (arg : BitVec 16) :
    hdrArg (op ++ rsv ++ c ++ arg) = arg := by
  apply BitVec.eq_of_getLsbD_eq
  intro i hi
  rw [hdrArg, BitVec.getLsbD_extractLsb', getLsbD_fields]
  simp [hi]

/-- A header is made of its fields. -/
theorem fields_of_header (hdr : Word) : hdrOp hdr ++ hdrRsv hdr ++ BitVec.ofBool (hdrC hdr) ++ hdrArg hdr = hdr := by
  apply BitVec.eq_of_getLsbD_eq
  intro i hi
  rw [getLsbD_fields]
  simp only [hdrOp, hdrRsv, hdrC, hdrArg, BitVec.getLsbD_extractLsb', BitVec.getLsbD_ofBool]
  split
  · simp [*]
  · split
    · have : i = 16 := by omega
      subst this
      simp
    · split
      · have h1 : i - 17 < 7 := by omega
        have h2 : 17 + (i - 17) = i := by omega
        simp [h1, h2]
      · have h1 : i - 24 < 8 := by omega
        have h2 : 24 + (i - 24) = i := by omega
        simp [h1, h2]

/-! ### Fields of a command's header -/

@[simp] theorem hdrOp_mkHeader (op : Byte) (c : Bool) (arg : BitVec 16) : hdrOp (mkHeader op c arg) = op :=
  hdrOp_fields ..

@[simp] theorem hdrRsv_mkHeader (op : Byte) (c : Bool) (arg : BitVec 16) : hdrRsv (mkHeader op c arg) = 0 :=
  hdrRsv_fields ..

@[simp] theorem hdrC_mkHeader (op : Byte) (c : Bool) (arg : BitVec 16) : hdrC (mkHeader op c arg) = c := by
  rw [mkHeader, hdrC_fields]
  cases c <;> rfl

@[simp] theorem hdrArg_mkHeader (op : Byte) (c : Bool) (arg : BitVec 16) : hdrArg (mkHeader op c arg) = arg :=
  hdrArg_fields ..

/-- Masking a command's header that has no reserved bit set, field by field. -/
theorem mkHeader_and (op : Byte) (c mc : Bool) (arg ma : BitVec 16) :
    mkHeader op c arg &&& (0xFF#8 ++ 0x7F#7 ++ BitVec.ofBool mc ++ ma) = mkHeader op (c && mc) (arg &&& ma) := by
  apply BitVec.eq_of_getLsbD_eq
  intro i hi
  simp only [mkHeader, BitVec.getLsbD_and, getLsbD_fields]
  split
  · rfl
  · split
    · simp only [BitVec.getLsbD_ofBool]
      cases c <;> cases mc <;> simp
    · split
      · simp
      · have h : i - 24 < 8 := by omega
        have hb : ∀ j < 8, (0xFF#8).getLsbD j = true := by decide
        simp [hb _ h]

/-! ### Opcodes -/

@[simp] theorem ofCode_code (o : Opcode) : Opcode.ofCode o.code = some o := by cases o <;> decide

/-- A value of `op` names the opcode that has it as its code. -/
theorem code_of_ofCode {b : Byte} {o : Opcode} (h : Opcode.ofCode b = some o) : o.code = b := by
  simpa using List.find?_some h

theorem mem_all (o : Opcode) : o ∈ Opcode.all := by cases o <;> decide

/-- A value that names no opcode is the code of none. -/
theorem code_ne_of_ofCode_none {b : Byte} (h : Opcode.ofCode b = none) (o : Opcode) : o.code ≠ b := by
  have := List.find?_eq_none.mp h o (mem_all o)
  simpa using this

theorem code_injective {o o' : Opcode} (h : o.code = o'.code) : o = o' := by
  have := ofCode_code o
  rw [h, ofCode_code] at this
  exact (Option.some.inj this).symm

/-- The payload length of a header with a known opcode: by format (R93, R95). -/
theorem paylen_of_op {hdr : Word} {o : Opcode} (h : hdrOp hdr = o.code) :
    paylen hdr = match o.format with
      | .N => 0
      | .F => 40
      | .V => (hdrArg hdr).toNat := by
  rw [paylen, h]
  cases o <;> rfl

/-! ### Framing -/

/-- Decoding starts with the four header bytes. -/
theorem decode_header_append (hdr : Word) (body : List Byte) : decode (bytesBe32 hdr ++ body) = decodeBody hdr body := by
  have : be32 (hdr.extractLsb' 24 8) (hdr.extractLsb' 16 8) (hdr.extractLsb' 8 8) (hdr.extractLsb' 0 8) = hdr :=
    be32_bytes hdr
  simp only [bytesBe32, List.cons_append, List.nil_append, decode, this]

/-- Four bytes or more are a header and a body. -/
theorem exists_header_body {bs : List Byte} (h : 4 ≤ bs.length) : ∃ hdr body, bs = bytesBe32 hdr ++ body := by
  match bs, h with
  | b0 :: b1 :: b2 :: b3 :: body, _ => exact ⟨be32 b0 b1 b2 b3, body, by rw [bytesBe32_be32]; rfl⟩

/-- Fewer than four bytes are no packet. -/
theorem decode_short {bs : List Byte} (h : bs.length < 4) : decode bs = .incomplete := by
  match bs, h with
  | [], _ => rfl
  | [_], _ => rfl
  | [_, _], _ => rfl
  | [_, _, _], _ => rfl
  | _ :: _ :: _ :: _ :: _, h => simp only [List.length_cons] at h; omega

/-- A whole body is cut at the payload length. -/
theorem decodeBody_whole {hdr : Word} {payload : List Byte} (h : payload.length = paylen hdr) (rest : List Byte) :
    decodeBody hdr (payload ++ rest) =
      match checkHeader hdr with
      | .error why => .illegal hdr why rest
      | .ok o => .packet (assemble o hdr payload) rest := by
  have hl : ¬ (payload ++ rest).length < paylen hdr := by simp only [List.length_append]; omega
  have ht : (payload ++ rest).take (paylen hdr) = payload := by rw [← h]; simp
  have hd : (payload ++ rest).drop (paylen hdr) = rest := by rw [← h]; simp
  cases hc : checkHeader hdr <;> simp only [decodeBody, if_neg hl, ht, hd, hc]

/-- A whole packet, cut off and decoded. -/
theorem decode_whole {hdr : Word} {payload : List Byte} (h : payload.length = paylen hdr) (rest : List Byte) :
    decode (bytesBe32 hdr ++ payload ++ rest) =
      match checkHeader hdr with
      | .error why => .illegal hdr why rest
      | .ok o => .packet (assemble o hdr payload) rest := by
  rw [List.append_assoc, decode_header_append, decodeBody_whole h]

/-- What is not incomplete starts with a whole packet. -/
theorem exists_packet {bs : List Byte} (h : decode bs ≠ .incomplete) :
    ∃ hdr payload rest, bs = bytesBe32 hdr ++ payload ++ rest ∧ payload.length = paylen hdr := by
  by_cases h4 : bs.length < 4
  · exact absurd (decode_short h4) h
  · obtain ⟨hdr, body, rfl⟩ := exists_header_body (by omega : 4 ≤ bs.length)
    rw [decode_header_append, decodeBody] at h
    split at h
    · exact absurd rfl h
    · refine ⟨hdr, body.take (paylen hdr), body.drop (paylen hdr), by simp, ?_⟩
      rw [List.length_take]
      omega

/-- No header announces more than a packet can carry. -/
theorem paylen_le (hdr : Word) : paylen hdr ≤ maxPayload := by
  have := (hdrArg hdr).isLt
  simp only [paylen, maxPayload]
  split
  · omega
  · split <;> omega

/-- Operand assembly gives a command that a packet can carry. -/
theorem assemble_wellFormed (o : Opcode) (hdr : Word) {payload : List Byte} (h : payload.length ≤ maxPayload) :
    (assemble o hdr payload).WellFormed := by
  cases o <;> simp [assemble, Instr.WellFormed, Instr.wellFormed, h]

end Sys2Proof
end

