-- ==== Sys2Proof/Laws/State.lean ====
section
/-! SUPPORT. One lemma per field per update of the state, so that no proof unfolds a record update; and the valid bits. -/

namespace Sys2Proof.Machine

/-! ### setEngine -/

@[simp] theorem setEngine_engine (e : Option Engine) (s : State) : (setEngine e s).engine = e := rfl
@[simp] theorem setEngine_midstate (e : Option Engine) (s : State) : (setEngine e s).midstate = s.midstate := rfl
@[simp] theorem setEngine_digest (e : Option Engine) (s : State) : (setEngine e s).digest = s.digest := rfl
@[simp] theorem setEngine_encoder (e : Option Engine) (s : State) : (setEngine e s).encoder = s.encoder := rfl
@[simp] theorem setEngine_halt (e : Option Engine) (s : State) : (setEngine e s).halt = s.halt := rfl
@[simp] theorem setEngine_fcode (e : Option Engine) (s : State) : (setEngine e s).fcode = s.fcode := rfl
@[simp] theorem setEngine_finfo (e : Option Engine) (s : State) : (setEngine e s).finfo = s.finfo := rfl
@[simp] theorem setEngine_cap (e : Option Engine) (s : State) : (setEngine e s).cap = s.cap := rfl
@[simp] theorem setEngine_cmd (e : Option Engine) (s : State) : (setEngine e s).cmd = s.cmd := rfl
@[simp] theorem setEngine_rsp (e : Option Engine) (s : State) : (setEngine e s).rsp = s.rsp := rfl

/-! ### setMidstate -/

@[simp] theorem setMidstate_engine (m : Option Midstate) (s : State) : (setMidstate m s).engine = s.engine := rfl
@[simp] theorem setMidstate_midstate (m : Option Midstate) (s : State) : (setMidstate m s).midstate = m := rfl
@[simp] theorem setMidstate_digest (m : Option Midstate) (s : State) : (setMidstate m s).digest = s.digest := rfl
@[simp] theorem setMidstate_encoder (m : Option Midstate) (s : State) : (setMidstate m s).encoder = s.encoder := rfl
@[simp] theorem setMidstate_halt (m : Option Midstate) (s : State) : (setMidstate m s).halt = s.halt := rfl
@[simp] theorem setMidstate_fcode (m : Option Midstate) (s : State) : (setMidstate m s).fcode = s.fcode := rfl
@[simp] theorem setMidstate_finfo (m : Option Midstate) (s : State) : (setMidstate m s).finfo = s.finfo := rfl
@[simp] theorem setMidstate_cap (m : Option Midstate) (s : State) : (setMidstate m s).cap = s.cap := rfl
@[simp] theorem setMidstate_cmd (m : Option Midstate) (s : State) : (setMidstate m s).cmd = s.cmd := rfl
@[simp] theorem setMidstate_rsp (m : Option Midstate) (s : State) : (setMidstate m s).rsp = s.rsp := rfl

/-! ### setDigest -/

@[simp] theorem setDigest_engine (d : Option Bytes32) (s : State) : (setDigest d s).engine = s.engine := rfl
@[simp] theorem setDigest_midstate (d : Option Bytes32) (s : State) : (setDigest d s).midstate = s.midstate := rfl
@[simp] theorem setDigest_digest (d : Option Bytes32) (s : State) : (setDigest d s).digest = d := rfl
@[simp] theorem setDigest_encoder (d : Option Bytes32) (s : State) : (setDigest d s).encoder = s.encoder := rfl
@[simp] theorem setDigest_halt (d : Option Bytes32) (s : State) : (setDigest d s).halt = s.halt := rfl
@[simp] theorem setDigest_fcode (d : Option Bytes32) (s : State) : (setDigest d s).fcode = s.fcode := rfl
@[simp] theorem setDigest_finfo (d : Option Bytes32) (s : State) : (setDigest d s).finfo = s.finfo := rfl
@[simp] theorem setDigest_cap (d : Option Bytes32) (s : State) : (setDigest d s).cap = s.cap := rfl
@[simp] theorem setDigest_cmd (d : Option Bytes32) (s : State) : (setDigest d s).cmd = s.cmd := rfl
@[simp] theorem setDigest_rsp (d : Option Bytes32) (s : State) : (setDigest d s).rsp = s.rsp := rfl

/-! ### setEncoder -/

@[simp] theorem setEncoder_engine (x : Option Encoder) (s : State) : (setEncoder x s).engine = s.engine := rfl
@[simp] theorem setEncoder_midstate (x : Option Encoder) (s : State) : (setEncoder x s).midstate = s.midstate := rfl
@[simp] theorem setEncoder_digest (x : Option Encoder) (s : State) : (setEncoder x s).digest = s.digest := rfl
@[simp] theorem setEncoder_encoder (x : Option Encoder) (s : State) : (setEncoder x s).encoder = x := rfl
@[simp] theorem setEncoder_halt (x : Option Encoder) (s : State) : (setEncoder x s).halt = s.halt := rfl
@[simp] theorem setEncoder_fcode (x : Option Encoder) (s : State) : (setEncoder x s).fcode = s.fcode := rfl
@[simp] theorem setEncoder_finfo (x : Option Encoder) (s : State) : (setEncoder x s).finfo = s.finfo := rfl
@[simp] theorem setEncoder_cap (x : Option Encoder) (s : State) : (setEncoder x s).cap = s.cap := rfl
@[simp] theorem setEncoder_cmd (x : Option Encoder) (s : State) : (setEncoder x s).cmd = s.cmd := rfl
@[simp] theorem setEncoder_rsp (x : Option Encoder) (s : State) : (setEncoder x s).rsp = s.rsp := rfl

/-! ### setFault -/

@[simp] theorem setFault_engine (code : Byte) (info : U64) (s : State) : (setFault code info s).engine = s.engine := rfl
@[simp] theorem setFault_midstate (code : Byte) (info : U64) (s : State) : (setFault code info s).midstate = s.midstate := rfl
@[simp] theorem setFault_digest (code : Byte) (info : U64) (s : State) : (setFault code info s).digest = s.digest := rfl
@[simp] theorem setFault_encoder (code : Byte) (info : U64) (s : State) : (setFault code info s).encoder = s.encoder := rfl
@[simp] theorem setFault_halt (code : Byte) (info : U64) (s : State) : (setFault code info s).halt = true := rfl
@[simp] theorem setFault_fcode (code : Byte) (info : U64) (s : State) : (setFault code info s).fcode = code := rfl
@[simp] theorem setFault_finfo (code : Byte) (info : U64) (s : State) : (setFault code info s).finfo = info := rfl
@[simp] theorem setFault_cap (code : Byte) (info : U64) (s : State) : (setFault code info s).cap = s.cap := rfl
@[simp] theorem setFault_cmd (code : Byte) (info : U64) (s : State) : (setFault code info s).cmd = s.cmd := rfl
@[simp] theorem setFault_rsp (code : Byte) (info : U64) (s : State) : (setFault code info s).rsp = s.rsp := rfl

/-! ### setCmd -/

@[simp] theorem setCmd_engine (bytes : List Byte) (s : State) : (setCmd bytes s).engine = s.engine := rfl
@[simp] theorem setCmd_midstate (bytes : List Byte) (s : State) : (setCmd bytes s).midstate = s.midstate := rfl
@[simp] theorem setCmd_digest (bytes : List Byte) (s : State) : (setCmd bytes s).digest = s.digest := rfl
@[simp] theorem setCmd_encoder (bytes : List Byte) (s : State) : (setCmd bytes s).encoder = s.encoder := rfl
@[simp] theorem setCmd_halt (bytes : List Byte) (s : State) : (setCmd bytes s).halt = s.halt := rfl
@[simp] theorem setCmd_fcode (bytes : List Byte) (s : State) : (setCmd bytes s).fcode = s.fcode := rfl
@[simp] theorem setCmd_finfo (bytes : List Byte) (s : State) : (setCmd bytes s).finfo = s.finfo := rfl
@[simp] theorem setCmd_cap (bytes : List Byte) (s : State) : (setCmd bytes s).cap = s.cap := rfl
@[simp] theorem setCmd_cmd (bytes : List Byte) (s : State) : (setCmd bytes s).cmd = bytes := rfl
@[simp] theorem setCmd_rsp (bytes : List Byte) (s : State) : (setCmd bytes s).rsp = s.rsp := rfl

/-! ### emit -/

@[simp] theorem emit_engine (r : Response) (s : State) : (emit r s).engine = s.engine := rfl
@[simp] theorem emit_midstate (r : Response) (s : State) : (emit r s).midstate = s.midstate := rfl
@[simp] theorem emit_digest (r : Response) (s : State) : (emit r s).digest = s.digest := rfl
@[simp] theorem emit_encoder (r : Response) (s : State) : (emit r s).encoder = s.encoder := rfl
@[simp] theorem emit_halt (r : Response) (s : State) : (emit r s).halt = s.halt := rfl
@[simp] theorem emit_fcode (r : Response) (s : State) : (emit r s).fcode = s.fcode := rfl
@[simp] theorem emit_finfo (r : Response) (s : State) : (emit r s).finfo = s.finfo := rfl
@[simp] theorem emit_cap (r : Response) (s : State) : (emit r s).cap = s.cap := rfl
@[simp] theorem emit_cmd (r : Response) (s : State) : (emit r s).cmd = s.cmd := rfl
@[simp] theorem emit_rsp (r : Response) (s : State) : (emit r s).rsp = s.rsp ++ [r] := rfl

/-! ### The vocabulary of the statements, in terms of the updates -/

theorem emit_ok_eq (payload : List Byte) (s : State) : emit ⟨.ok, payload⟩ s = s.answered payload := rfl

theorem emit_fault_eq (code : Byte) (info : U64) (s : State) :
    emit ⟨.fault, code :: bytesBe64 info⟩ (setFault code info s) = s.faulted code info := rfl

theorem emit_halted_eq (s : State) : emit ⟨.halted, []⟩ s = s.refusedHalted := rfl

@[simp] theorem State.answered_engine (s : State) (payload : List Byte) : (s.answered payload).engine = s.engine := rfl
@[simp] theorem State.answered_midstate (s : State) (payload : List Byte) : (s.answered payload).midstate = s.midstate := rfl
@[simp] theorem State.answered_digest (s : State) (payload : List Byte) : (s.answered payload).digest = s.digest := rfl
@[simp] theorem State.answered_encoder (s : State) (payload : List Byte) : (s.answered payload).encoder = s.encoder := rfl
@[simp] theorem State.answered_halt (s : State) (payload : List Byte) : (s.answered payload).halt = s.halt := rfl
@[simp] theorem State.answered_fcode (s : State) (payload : List Byte) : (s.answered payload).fcode = s.fcode := rfl
@[simp] theorem State.answered_finfo (s : State) (payload : List Byte) : (s.answered payload).finfo = s.finfo := rfl
@[simp] theorem State.answered_cap (s : State) (payload : List Byte) : (s.answered payload).cap = s.cap := rfl
@[simp] theorem State.answered_cmd (s : State) (payload : List Byte) : (s.answered payload).cmd = s.cmd := rfl
@[simp] theorem State.answered_rsp (s : State) (payload : List Byte) : (s.answered payload).rsp = s.rsp ++ [⟨.ok, payload⟩] := rfl

@[simp] theorem State.faulted_engine (s : State) (code : Byte) (info : U64) : (s.faulted code info).engine = s.engine := rfl
@[simp] theorem State.faulted_midstate (s : State) (code : Byte) (info : U64) : (s.faulted code info).midstate = s.midstate := rfl
@[simp] theorem State.faulted_digest (s : State) (code : Byte) (info : U64) : (s.faulted code info).digest = s.digest := rfl
@[simp] theorem State.faulted_encoder (s : State) (code : Byte) (info : U64) : (s.faulted code info).encoder = s.encoder := rfl
@[simp] theorem State.faulted_halt (s : State) (code : Byte) (info : U64) : (s.faulted code info).halt = true := rfl
@[simp] theorem State.faulted_fcode (s : State) (code : Byte) (info : U64) : (s.faulted code info).fcode = code := rfl
@[simp] theorem State.faulted_finfo (s : State) (code : Byte) (info : U64) : (s.faulted code info).finfo = info := rfl
@[simp] theorem State.faulted_cap (s : State) (code : Byte) (info : U64) : (s.faulted code info).cap = s.cap := rfl
@[simp] theorem State.faulted_cmd (s : State) (code : Byte) (info : U64) : (s.faulted code info).cmd = s.cmd := rfl
@[simp] theorem State.faulted_rsp (s : State) (code : Byte) (info : U64) : (s.faulted code info).rsp = s.rsp ++ [⟨.fault, code :: bytesBe64 info⟩] := rfl

@[simp] theorem State.refusedHalted_engine (s : State) : (s.refusedHalted).engine = s.engine := rfl
@[simp] theorem State.refusedHalted_midstate (s : State) : (s.refusedHalted).midstate = s.midstate := rfl
@[simp] theorem State.refusedHalted_digest (s : State) : (s.refusedHalted).digest = s.digest := rfl
@[simp] theorem State.refusedHalted_encoder (s : State) : (s.refusedHalted).encoder = s.encoder := rfl
@[simp] theorem State.refusedHalted_halt (s : State) : (s.refusedHalted).halt = s.halt := rfl
@[simp] theorem State.refusedHalted_fcode (s : State) : (s.refusedHalted).fcode = s.fcode := rfl
@[simp] theorem State.refusedHalted_finfo (s : State) : (s.refusedHalted).finfo = s.finfo := rfl
@[simp] theorem State.refusedHalted_cap (s : State) : (s.refusedHalted).cap = s.cap := rfl
@[simp] theorem State.refusedHalted_cmd (s : State) : (s.refusedHalted).cmd = s.cmd := rfl
@[simp] theorem State.refusedHalted_rsp (s : State) : (s.refusedHalted).rsp = s.rsp ++ [⟨.halted, []⟩] := rfl

/-! ### The valid bits -/

@[simp] theorem State.ev_eq (s : State) : s.ev = s.engine.isSome := rfl
@[simp] theorem State.mv_eq (s : State) : s.mv = s.midstate.isSome := rfl
@[simp] theorem State.dv_eq (s : State) : s.dv = s.digest.isSome := rfl
@[simp] theorem State.xv_eq (s : State) : s.xv = s.encoder.isSome := rfl

/-- The capacity of an instance is what R7 requires of it. -/
theorem capSize_bounds (c : Cap) : c.size % 2 = 0 ∧ 2 ≤ c.size ∧ c.size ≤ 65534 := by
  have := c.half.isLt
  simp only [Cap.size]
  omega

end Sys2Proof.Machine
end

