-- ==== Sys2Proof/Laws/Ops.lean ====
section
/-! SUPPORT. What each shared operation can do: one equation for each of its cases, and one inversion for each that branches. Proofs
cite these instead of unfolding the operation. -/

namespace Sys2Proof.Machine

/-! ### Answers -/

theorem respondOk_eq (payload : List Byte) (s : State) : respondOk payload s = .next (s.answered payload) := rfl

theorem returnBoundary_eq (info : U64) (s : State) :
    returnBoundary info s = .next { s with rsp := s.rsp ++ [⟨.errBoundary, bytesBe64 info⟩] } := rfl

theorem refuseHalted_eq (s : State) : refuseHalted s = .next s.refusedHalted := rfl

/-- Taking a fault, in the words of R258. -/
theorem raiseFault_eq (code : FaultCode) (info : U64) (s : State) :
    raiseFault code info s = .next (s.faulted (faultByte code) info) := rfl

/-! ### The halted check -/

@[simp] theorem unlessHalted_live {s : State} (h : s.halt = false) (k : Result) : unlessHalted s k = k := by
  simp [unlessHalted, h]

@[simp] theorem unlessHalted_halted {s : State} (h : s.halt = true) (k : Result) :
    unlessHalted s k = .next s.refusedHalted := by
  simp [unlessHalted, h, refuseHalted_eq]

/-- If a checked command goes on, it was refused on a halted block or it executed on a live one. -/
theorem unlessHalted_next {s t : State} {k : Result} (h : unlessHalted s k = .next t) :
    (s.halt = true ∧ t = s.refusedHalted) ∨ (s.halt = false ∧ k = .next t) := by
  cases hs : s.halt with
  | true =>
    rw [unlessHalted_halted hs] at h
    cases h
    exact .inl ⟨rfl, rfl⟩
  | false => exact .inr ⟨rfl, by rwa [unlessHalted_live hs] at h⟩

/-! ### Needed objects -/

@[simp] theorem withEngine_some {s : State} {e : Engine} (h : s.engine = some e) (k : Engine → Result) :
    withEngine s k = k e := by simp [withEngine, h]

@[simp] theorem withEngine_none {s : State} (h : s.engine = none) (k : Engine → Result) :
    withEngine s k = .next (s.faulted 2 1) := by simp [withEngine, h, raiseFault_eq, faultByte, objectNumber]

@[simp] theorem withMidstate_some {s : State} {m : Midstate} (h : s.midstate = some m) (k : Midstate → Result) :
    withMidstate s k = k m := by simp [withMidstate, h]

@[simp] theorem withMidstate_none {s : State} (h : s.midstate = none) (k : Midstate → Result) :
    withMidstate s k = .next (s.faulted 2 2) := by simp [withMidstate, h, raiseFault_eq, faultByte, objectNumber]

@[simp] theorem withDigest_some {s : State} {d : Bytes32} (h : s.digest = some d) (k : Bytes32 → Result) :
    withDigest s k = k d := by simp [withDigest, h]

@[simp] theorem withDigest_none {s : State} (h : s.digest = none) (k : Bytes32 → Result) :
    withDigest s k = .next (s.faulted 2 3) := by simp [withDigest, h, raiseFault_eq, faultByte, objectNumber]

@[simp] theorem withEncoder_some {s : State} {x : Encoder} (h : s.encoder = some x) (k : Encoder → Result) :
    withEncoder s k = k x := by simp [withEncoder, h]

@[simp] theorem withEncoder_none {s : State} (h : s.encoder = none) (k : Encoder → Result) :
    withEncoder s k = .next (s.faulted 2 4) := by simp [withEncoder, h, raiseFault_eq, faultByte, objectNumber]

/-! ### Hex digits -/

@[simp] theorem length_hexPair (v : Byte) (c : Case) : (hexPair v c).length = 2 := rfl

/-- Every entry of both digit tables is one of the 22 digit codes. -/
theorem isHexDigit_hexDigit (c : Case) (d : BitVec 4) : isHexDigit (hexDigit c d) = true := by
  revert d
  cases c <;> decide

theorem all_isHexDigit_hexPair (v : Byte) (c : Case) : (hexPair v c).all isHexDigit = true := by
  simp [hexPair, isHexDigit_hexDigit]

/-! ### Fetching -/

/-- A whole packet of a command is consumed and handed over. -/
theorem fetch_command {s : State} {i : Instr} {rest : List Byte} (h : decode s.cmd = .packet i rest) :
    fetch s = .command i { s with cmd := rest } := by
  rw [fetch, h]
  rfl

/-- A whole packet with an illegal header is consumed and reported. -/
theorem fetch_illegal {s : State} {hdr : Word} {why : Illegal} {rest : List Byte}
    (h : decode s.cmd = .illegal hdr why rest) : fetch s = .illegal hdr { s with cmd := rest } := by
  rw [fetch, h]
  rfl

/-- No whole packet, nothing to hand over. -/
theorem fetch_incomplete {s : State} (h : decode s.cmd = .incomplete) : fetch s = .incomplete := by
  rw [fetch, h]

end Sys2Proof.Machine
end

