-- ==== Sys2Proof/Laws/Engine.lean ====
section
/-! SUPPORT. The engine's byte loop (spec/41_engine.md R163) and the padding's lengths (R169). -/

namespace Sys2Proof.Machine

/-- One pass that does not fill the buffer appends the byte. -/
theorem absorbByte_partial (S : HState) (buf : List Byte) (b : Byte) (h : buf.length + 1 ≠ 64) :
    absorbByte (S, buf) b = (S, buf ++ [b]) := by
  simp [absorbByte, h]

/-- The pass that fills the buffer compresses the block and empties it. -/
theorem absorbByte_full (S : HState) (buf : List Byte) (b : Byte) (h : buf.length + 1 = 64) :
    absorbByte (S, buf) b = (compress S (block (buf ++ [b])), []) := by
  have hl : (buf ++ [b]).length = 64 := by simp [h]
  have hr : memRead (buf ++ [b]) 0 64 = buf ++ [b] := by rw [← hl, memRead_all]
  simp only [absorbByte, memWrite_end]
  rw [if_pos hl, hr]

/-- Absorbing one sequence after another is absorbing their concatenation. -/
theorem absorb_append (p : HState × List Byte) (a b : List Byte) : absorb p (a ++ b) = absorb (absorb p a) b :=
  List.foldl_append

@[simp] theorem absorb_nil (p : HState × List Byte) : absorb p [] = p := rfl

theorem absorb_cons (p : HState × List Byte) (b : Byte) (s : List Byte) :
    absorb p (b :: s) = absorb (absorbByte p b) s := rfl

/-- Bytes that do not fill the buffer only wait in it. -/
theorem absorb_partial (S : HState) (buf s : List Byte) (h : buf.length + s.length < 64) :
    absorb (S, buf) s = (S, buf ++ s) := by
  induction s generalizing buf with
  | nil => simp
  | cons b s ih =>
    simp only [List.length_cons] at h
    rw [absorb_cons, absorbByte_partial _ _ _ (by omega), ih _ (by simp; omega)]
    simp

/-- Bytes that fill the buffer exactly are one compression. -/
theorem absorb_block (S : HState) (buf s : List Byte) (hs : s ≠ []) (h : buf.length + s.length = 64) :
    absorb (S, buf) s = (compress S (block (buf ++ s)), []) := by
  obtain ⟨s', b, rfl⟩ : ∃ s' b, s = s' ++ [b] := ⟨_, _, (List.dropLast_append_getLast hs).symm⟩
  simp only [List.length_append, List.length_cons, List.length_nil] at h
  rw [absorb_append, absorb_partial S buf s' (by omega), absorb_cons, absorbByte_full _ _ _ (by simp; omega)]
  simp

/-- The buffer's length after the loop: what came in, modulo 64. -/
theorem length_absorb (S : HState) (buf s : List Byte) (h : buf.length < 64) :
    (absorb (S, buf) s).2.length = (buf.length + s.length) % 64 := by
  induction s generalizing S buf with
  | nil => simp [Nat.mod_eq_of_lt h]
  | cons b s ih =>
    by_cases hb : buf.length + 1 = 64
    · rw [absorb_cons, absorbByte_full _ _ _ hb, ih _ _ (by simp)]
      simp only [List.length_nil, List.length_cons]
      omega
    · rw [absorb_cons, absorbByte_partial _ _ _ hb, ih _ _ (by simp; omega)]
      simp only [List.length_append, List.length_cons, List.length_nil]
      omega

@[simp] theorem length_padding (n : Nat) : (padding n).length = ((55 - (n : Int)) % 64).toNat + 9 := by
  simp [padding]

/-- The padding completes a whole number of blocks. -/
theorem length_padding_mod (n : Nat) : (n + (padding n).length) % 64 = 0 := by
  rw [length_padding]
  omega

theorem length_blocksOf (m : Nat) (p : List Byte) : (blocksOf m p).length = m := by
  induction m generalizing p with
  | zero => rfl
  | succ m ih => simp [blocksOf, ih]

/-- The first block of a sequence, and the blocks after it. -/
theorem blocksOf_block_append {a : List Byte} (h : a.length = 64) (m : Nat) (b : List Byte) :
    blocksOf (m + 1) (a ++ b) = block a :: blocksOf m b := by
  have hd : (a ++ b).drop 64 = b := by rw [← h]; simp
  rw [blocksOf, memRead_append_left h, hd]

/-- Everything the byte loop can do: it compresses the whole blocks of what was buffered and what came in, and keeps the rest. -/
theorem absorb_eq (S : HState) (buf s : List Byte) (h : buf.length < 64) :
    absorb (S, buf) s = (compressAll S (blocksOf ((buf ++ s).length / 64) (buf ++ s)),
      (buf ++ s).drop (64 * ((buf ++ s).length / 64))) := by
  induction hn : s.length using Nat.strong_induction_on generalizing S buf s with
  | _ n ih =>
    by_cases hl : buf.length + s.length < 64
    · have hk : (buf ++ s).length / 64 = 0 := by rw [List.length_append]; omega
      rw [absorb_partial _ _ _ hl, hk]
      rfl
    · obtain ⟨s₁, s₂, rfl, h1⟩ : ∃ s₁ s₂, s = s₁ ++ s₂ ∧ buf.length + s₁.length = 64 :=
        ⟨s.take (64 - buf.length), s.drop (64 - buf.length), by simp, by simp only [List.length_take]; omega⟩
      have h64 : (buf ++ s₁).length = 64 := by rw [List.length_append, h1]
      have hne : s₁ ≠ [] := by
        rintro rfl
        simp only [List.length_nil] at h1
        omega
      have hpos : 0 < s₁.length := List.length_pos_iff.mpr hne
      have hk : (buf ++ (s₁ ++ s₂)).length / 64 = s₂.length / 64 + 1 := by simp only [List.length_append]; omega
      rw [absorb_append, absorb_block _ _ _ hne h1, ih s₂.length (by rw [← hn, List.length_append]; omega) _ _ _ (by simp) rfl, hk,
        ← List.append_assoc, blocksOf_block_append h64]
      simp only [List.nil_append]
      rw [List.drop_append, List.drop_of_length_le (l := buf ++ s₁) (by rw [h64]; omega)]
      have hd : 64 * (s₂.length / 64 + 1) - (buf ++ s₁).length = 64 * (s₂.length / 64) := by omega
      rw [hd]
      rfl

end Sys2Proof.Machine
end

