-- ==== Sys2Proof/Laws/HexEnc.lean ====
section
/-! SUPPORT. The encoder's byte loop and its capacity check (spec/43_hexenc.md R213). -/

namespace Sys2Proof.Machine

theorem putByte_eq (c : Case) (xbuf : List Byte) (b : Byte) : putByte c xbuf b = xbuf ++ hexPair b c :=
  memWrite_end _ _

/-- The byte loop appends the two characters of each byte, in order. -/
theorem putBytes_eq (xbuf bytes : List Byte) (c : Case) :
    putBytes xbuf bytes c = xbuf ++ bytes.flatMap fun b => hexPair b c := by
  induction bytes generalizing xbuf with
  | nil => simp [putBytes]
  | cons b bytes ih =>
    have h : putBytes xbuf (b :: bytes) c = putBytes (putByte c xbuf b) bytes c := rfl
    rw [h, ih, putByte_eq]
    simp

theorem length_hexText (bytes : List Byte) (c : Case) :
    (bytes.flatMap fun b => hexPair b c).length = 2 * bytes.length := by
  induction bytes with
  | nil => rfl
  | cons b bytes ih => simp only [List.flatMap_cons, List.length_append, length_hexPair, ih, List.length_cons]; omega

/-- `PUT` where the characters do not fit. -/
theorem put_overflow {s : State} {x : Encoder} {bytes : List Byte}
    (h : s.cap.size - x.xbuf.length < 2 * bytes.length) (c : Case) :
    put x bytes c s = .next (s.faulted 4 (BitVec.ofNat 64 bytes.length)) := by
  simp [put, encoderPos, h, raiseFault_eq, faultByte]

/-- `PUT` where they fit. -/
theorem put_fits {s : State} {x : Encoder} {bytes : List Byte}
    (h : 2 * bytes.length ≤ s.cap.size - x.xbuf.length) (c : Case) :
    put x bytes c s = .next (State.answered { s with
      encoder := some ⟨x.xbuf ++ bytes.flatMap fun b => hexPair b c⟩ } []) := by
  have h' : ¬ s.cap.size - x.xbuf.length < 2 * bytes.length := by omega
  simp only [put, encoderPos, h', if_false, putBytes_eq, respondOk_eq]
  rfl

/-- If `PUT` goes on, it faulted without a write or wrote everything. -/
theorem put_next {s t : State} {x : Encoder} {bytes : List Byte} {c : Case} (h : put x bytes c s = .next t) :
    (s.cap.size - x.xbuf.length < 2 * bytes.length ∧ t = s.faulted 4 (BitVec.ofNat 64 bytes.length)) ∨
    (2 * bytes.length ≤ s.cap.size - x.xbuf.length ∧
      t = State.answered { s with encoder := some ⟨x.xbuf ++ bytes.flatMap fun b => hexPair b c⟩ } []) := by
  by_cases hc : s.cap.size - x.xbuf.length < 2 * bytes.length
  · rw [put_overflow hc] at h
    cases h
    exact .inl ⟨hc, rfl⟩
  · rw [put_fits (by omega)] at h
    cases h
    exact .inr ⟨by omega, rfl⟩

end Sys2Proof.Machine
end

