-- ==== Sys2Proof/Laws/Exec.lean ====
section
/-! SUPPORT. What executing a command can do, said once: it always answers a next state, and that state is one of four (spec/60_exceptions.md
R256, R258, R260, R262). -/

namespace Sys2Proof.Machine

/-- `u` is `s` but for the objects that the command's row of the matrix of R40 marks W. -/
structure WroteOnlyRow (i : Instr) (s u : State) : Prop where
  engine : writesEngine i = false → u.engine = s.engine
  midstate : writesMidstate i = false → u.midstate = s.midstate
  digest : writesDigest i = false → u.digest = s.digest
  encoder : writesEncoder i = false → u.encoder = s.encoder
  halt : u.halt = s.halt
  fcode : u.fcode = s.fcode
  finfo : u.finfo = s.finfo
  cap : u.cap = s.cap
  cmd : u.cmd = s.cmd
  rsp : u.rsp = s.rsp

theorem wroteOnlyRow_refl (i : Instr) (s : State) : WroteOnlyRow i s s :=
  ⟨fun _ => rfl, fun _ => rfl, fun _ => rfl, fun _ => rfl, rfl, rfl, rfl, rfl, rfl, rfl⟩

theorem wroteOnlyRow_setEngine {i : Instr} {s u : State} (hu : WroteOnlyRow i s u) (hw : writesEngine i = true)
    (v : Option Engine) : WroteOnlyRow i s (setEngine v u) :=
  { hu with engine := fun h => by rw [hw] at h; cases h }

theorem wroteOnlyRow_setMidstate {i : Instr} {s u : State} (hu : WroteOnlyRow i s u) (hw : writesMidstate i = true)
    (v : Option Midstate) : WroteOnlyRow i s (setMidstate v u) :=
  { hu with midstate := fun h => by rw [hw] at h; cases h }

theorem wroteOnlyRow_setDigest {i : Instr} {s u : State} (hu : WroteOnlyRow i s u) (hw : writesDigest i = true)
    (v : Option Bytes32) : WroteOnlyRow i s (setDigest v u) :=
  { hu with digest := fun h => by rw [hw] at h; cases h }

theorem wroteOnlyRow_setEncoder {i : Instr} {s u : State} (hu : WroteOnlyRow i s u) (hw : writesEncoder i = true)
    (v : Option Encoder) : WroteOnlyRow i s (setEncoder v u) :=
  { hu with encoder := fun h => by rw [hw] at h; cases h }

/-- The four ways a command ends, all of them next states. -/
inductive Ended (i : Instr) (s : State) : State → Prop where
  /-- A halted block refused it (R260). -/
  | refused (h : s.halt = true) (hi : i ≠ .sstat) : Ended i s s.refusedHalted
  /-- It took a fault (R258). -/
  | faulted (h : s.halt = false) (code : FaultCode) (info : U64) : Ended i s (s.faulted (faultByte code) info)
  /-- EMID returned the recoverable error (R256). -/
  | boundary (h : s.halt = false) (hi : i = .emid) (info : U64) :
      Ended i s { s with rsp := s.rsp ++ [⟨.errBoundary, bytesBe64 info⟩] }
  /-- It completed (R262). -/
  | completed (h : s.halt = false ∨ i = .sstat) (u : State) (hu : WroteOnlyRow i s u) (payload : List Byte) :
      Ended i s (u.answered payload)

/-- A result that goes on in one of the four ways. -/
abbrev EndsWell (i : Instr) (s : State) (r : Result) : Prop := ∃ t, r = .next t ∧ Ended i s t

theorem endsWell_unlessHalted {i : Instr} {s : State} {k : Result} (hi : i ≠ .sstat)
    (hk : s.halt = false → EndsWell i s k) : EndsWell i s (unlessHalted s k) := by
  cases h : s.halt with
  | true => exact ⟨_, unlessHalted_halted h k, .refused h hi⟩
  | false =>
    rw [unlessHalted_live h]
    exact hk h

theorem endsWell_raiseFault {i : Instr} {s : State} (h : s.halt = false) (code : FaultCode) (info : U64) :
    EndsWell i s (raiseFault code info s) := ⟨_, raiseFault_eq .., .faulted h code info⟩

theorem endsWell_respondOk {i : Instr} {s u : State} (h : s.halt = false ∨ i = .sstat) (hu : WroteOnlyRow i s u)
    (payload : List Byte) : EndsWell i s (respondOk payload u) := ⟨_, rfl, .completed h u hu payload⟩

theorem endsWell_withEngine {i : Instr} {s : State} {k : Engine → Result} (h : s.halt = false)
    (hk : ∀ e, s.engine = some e → EndsWell i s (k e)) : EndsWell i s (withEngine s k) := by
  cases he : s.engine with
  | none => simpa only [withEngine, he] using endsWell_raiseFault h .noObj (objectNumber .engine)
  | some e => simpa only [withEngine, he] using hk e he

theorem endsWell_withMidstate {i : Instr} {s : State} {k : Midstate → Result} (h : s.halt = false)
    (hk : ∀ m, s.midstate = some m → EndsWell i s (k m)) : EndsWell i s (withMidstate s k) := by
  cases hm : s.midstate with
  | none => simpa only [withMidstate, hm] using endsWell_raiseFault h .noObj (objectNumber .midstate)
  | some m => simpa only [withMidstate, hm] using hk m hm

theorem endsWell_withDigest {i : Instr} {s : State} {k : Bytes32 → Result} (h : s.halt = false)
    (hk : ∀ d, s.digest = some d → EndsWell i s (k d)) : EndsWell i s (withDigest s k) := by
  cases hd : s.digest with
  | none => simpa only [withDigest, hd] using endsWell_raiseFault h .noObj (objectNumber .digest)
  | some d => simpa only [withDigest, hd] using hk d hd

theorem endsWell_withEncoder {i : Instr} {s : State} {k : Encoder → Result} (h : s.halt = false)
    (hk : ∀ x, s.encoder = some x → EndsWell i s (k x)) : EndsWell i s (withEncoder s k) := by
  cases hx : s.encoder with
  | none => simpa only [withEncoder, hx] using endsWell_raiseFault h .noObj (objectNumber .encoder)
  | some x => simpa only [withEncoder, hx] using hk x hx

theorem endsWell_put {i : Instr} {s : State} (h : s.halt = false) (hw : writesEncoder i = true) (x : Encoder)
    (bytes : List Byte) (c : Case) : EndsWell i s (put x bytes c s) := by
  unfold put
  split
  · exact endsWell_raiseFault h ..
  · exact endsWell_respondOk (.inl h) (wroteOnlyRow_setEncoder (wroteOnlyRow_refl ..) hw _) _

/-- Executing any command on any state answers a next state, in one of the four ways. -/
theorem exec_ends (i : Instr) (s : State) : EndsWell i s (exec i s) := by
  cases i with
  | sstat => exact endsWell_respondOk (.inr rfl) (wroteOnlyRow_refl ..) _
  | enew =>
    exact endsWell_unlessHalted (by simp) fun h =>
      endsWell_respondOk (.inl h) (wroteOnlyRow_setEngine (wroteOnlyRow_refl ..) rfl _) _
  | efromms =>
    exact endsWell_unlessHalted (by simp) fun h => endsWell_withMidstate h fun m _ =>
      endsWell_respondOk (.inl h) (wroteOnlyRow_setEngine (wroteOnlyRow_refl ..) rfl _) _
  | einput bytes =>
    refine endsWell_unlessHalted (by simp) fun h => endsWell_withEngine h fun e _ => ?_
    split
    · exact endsWell_raiseFault h ..
    · exact endsWell_respondOk (.inl h) (wroteOnlyRow_setEngine (wroteOnlyRow_refl ..) rfl _) _
  | ecanx =>
    exact endsWell_unlessHalted (by simp) fun h => endsWell_withEngine h fun e _ =>
      endsWell_respondOk (.inl h) (wroteOnlyRow_refl ..) _
  | emid =>
    refine endsWell_unlessHalted (by simp) fun h => endsWell_withEngine h fun e _ => ?_
    split
    · exact endsWell_respondOk (.inl h) (wroteOnlyRow_setMidstate (wroteOnlyRow_refl ..) rfl _) _
    · exact ⟨_, returnBoundary_eq .., .boundary h rfl _⟩
  | efinal =>
    refine endsWell_unlessHalted (by simp) fun h => endsWell_withEngine h fun e _ => ?_
    split
    · exact endsWell_raiseFault h ..
    · exact endsWell_respondOk (.inl h) (wroteOnlyRow_setEngine (wroteOnlyRow_setDigest (wroteOnlyRow_refl ..) rfl _) rfl _) _
  | mnew bytes n =>
    refine endsWell_unlessHalted (by simp) fun h => ?_
    split
    · exact endsWell_raiseFault h ..
    · exact endsWell_respondOk (.inl h) (wroteOnlyRow_setMidstate (wroteOnlyRow_refl ..) rfl _) _
  | mparts =>
    exact endsWell_unlessHalted (by simp) fun h => endsWell_withMidstate h fun m _ =>
      endsWell_respondOk (.inl h) (wroteOnlyRow_refl ..) _
  | mtag tag =>
    exact endsWell_unlessHalted (by simp) fun h =>
      endsWell_respondOk (.inl h) (wroteOnlyRow_setMidstate (wroteOnlyRow_refl ..) rfl _) _
  | dread =>
    exact endsWell_unlessHalted (by simp) fun h => endsWell_withDigest h fun d _ =>
      endsWell_respondOk (.inl h) (wroteOnlyRow_refl ..) _
  | xnew =>
    exact endsWell_unlessHalted (by simp) fun h =>
      endsWell_respondOk (.inl h) (wroteOnlyRow_setEncoder (wroteOnlyRow_refl ..) rfl _) _
  | xputb byte c =>
    exact endsWell_unlessHalted (by simp) fun h => endsWell_withEncoder h fun x _ => endsWell_put h rfl ..
  | xputn bytes c =>
    exact endsWell_unlessHalted (by simp) fun h => endsWell_withEncoder h fun x _ => endsWell_put h rfl ..
  | xfull =>
    exact endsWell_unlessHalted (by simp) fun h => endsWell_withEncoder h fun x _ =>
      endsWell_respondOk (.inl h) (wroteOnlyRow_refl ..) _
  | xstr =>
    exact endsWell_unlessHalted (by simp) fun h => endsWell_withEncoder h fun x _ =>
      endsWell_respondOk (.inl h) (wroteOnlyRow_refl ..) _
  | xclear =>
    exact endsWell_unlessHalted (by simp) fun h => endsWell_withEncoder h fun x _ =>
      endsWell_respondOk (.inl h) (wroteOnlyRow_setEncoder (wroteOnlyRow_refl ..) rfl _) _
  | xputd c =>
    exact endsWell_unlessHalted (by simp) fun h => endsWell_withDigest h fun d _ =>
      endsWell_withEncoder h fun x _ => endsWell_put h rfl ..

/-- The same, for a given next state. -/
theorem exec_next {i : Instr} {s t : State} (h : exec i s = .next t) : Ended i s t := by
  obtain ⟨t', h', he⟩ := exec_ends i s
  rw [h'] at h
  cases h
  exact he

/-- Executing a command adds exactly one response (spec/30_encoding.md R91). -/
theorem exec_rsp {i : Instr} {s t : State} (h : exec i s = .next t) : ∃ r, t.rsp = s.rsp ++ [r] := by
  cases exec_next h with
  | refused => exact ⟨_, rfl⟩
  | faulted => exact ⟨_, rfl⟩
  | boundary => exact ⟨_, rfl⟩
  | completed _ u hu payload => exact ⟨⟨.ok, payload⟩, by simp only [State.answered, hu.rsp]⟩

/-- A halted block refuses every command but SSTAT (spec/60_exceptions.md R260). -/
theorem exec_halted {i : Instr} {s : State} (h : s.halt = true) (hi : i ≠ .sstat) : exec i s = .next s.refusedHalted := by
  cases i <;> first | exact absurd rfl hi | exact unlessHalted_halted h _

/-- If a step goes on, it took a whole packet: a command, executed, or an illegal header, refused or faulted. -/
theorem step_next {s t : State} (h : step s = .next t) :
    (∃ i rest, decode s.cmd = .packet i rest ∧ exec i { s with cmd := rest } = .next t) ∨
    (∃ hdr why rest, decode s.cmd = .illegal hdr why rest ∧
      ((s.halt = true ∧ t = State.refusedHalted { s with cmd := rest }) ∨
       (s.halt = false ∧ t = State.faulted { s with cmd := rest } 1 (hdr.setWidth 64)))) := by
  cases hd : decode s.cmd with
  | incomplete =>
    rw [step, fetch_incomplete hd] at h
    cases h
  | illegal hdr why rest =>
    rw [step, fetch_illegal hd] at h
    refine .inr ⟨hdr, why, rest, rfl, ?_⟩
    rcases unlessHalted_next h with ⟨hh, rfl⟩ | ⟨hh, hk⟩
    · exact .inl ⟨hh, rfl⟩
    · rw [raiseFault_eq] at hk
      cases hk
      exact .inr ⟨hh, rfl⟩
  | packet i rest =>
    rw [step, fetch_command hd] at h
    exact .inl ⟨i, rest, rfl, h⟩

/-! ### Lists of commands -/

/-- The first command of a list, where it goes on. -/
theorem execAll_cons {i : Instr} {is : List Instr} {s t : State} (h : exec i s = .next t) :
    execAll (i :: is) s = execAll is t := by
  simp only [execAll, h]

/-- One list after another, where the first goes on. -/
theorem execAll_append {is js : List Instr} {s t : State} (h : execAll is s = .next t) :
    execAll (is ++ js) s = execAll js t := by
  induction is generalizing s with
  | nil =>
    cases h
    rfl
  | cons i is ih =>
    obtain ⟨u, hu, _⟩ := exec_ends i s
    rw [execAll_cons hu] at h
    rw [List.cons_append, execAll_cons hu, ih h]

/-- A list of commands always goes on. -/
theorem execAll_next (is : List Instr) (s : State) : ∃ t, execAll is s = .next t := by
  induction is generalizing s with
  | nil => exact ⟨s, rfl⟩
  | cons i is ih =>
    obtain ⟨u, hu, _⟩ := exec_ends i s
    rw [execAll_cons hu]
    exact ih u

/-- A list of commands adds one response for each. -/
theorem execAll_rsp {is : List Instr} {s t : State} (h : execAll is s = .next t) :
    ∃ rs, t.rsp = s.rsp ++ rs ∧ rs.length = is.length := by
  induction is generalizing s with
  | nil =>
    cases h
    exact ⟨[], (List.append_nil _).symm, rfl⟩
  | cons i is ih =>
    obtain ⟨u, hu, _⟩ := exec_ends i s
    rw [execAll_cons hu] at h
    obtain ⟨r, hr⟩ := exec_rsp hu
    obtain ⟨rs, hrs, hl⟩ := ih h
    exact ⟨r :: rs, by rw [hrs, hr, List.append_assoc]; rfl, by rw [List.length_cons, List.length_cons, hl]⟩

end Sys2Proof.Machine
end

