-- ==== Sys2Proof/Laws/PerInstr.lean ====
section
/-! SUPPORT. For every command: its header is legal and names its own opcode, it selects the row of the opcode map that has the
command's mnemonic, and its packet is as long as the header announces (spec/30_encoding.md R92, R95, R96). -/

namespace Sys2Proof.Laws.HeaderNamesCommand

open Sys2Proof Sys2Proof.Machine

/-- What holds of a well-formed command's packet. -/
def Statement (i : Instr) : Prop :=
  i.WellFormed → checkHeader i.header = .ok i.opcode ∧ i.payload.length = paylen i.header ∧
    ∃ r ∈ opTable, r.mnemonic = i.mnemonic ∧ r.selects i.header = true

/-- A length that fits the field is read back from it. -/
theorem arg_length {n : Nat} (h : n ≤ maxPayload) : (BitVec.ofNat 16 n).toNat = n := by
  simp only [BitVec.toNat_ofNat, maxPayload] at *
  omega

theorem sstat : Statement .sstat := fun _ =>
  ⟨by decide, by decide, ⟨"SSTAT", 0x01000000, 0xFFFFFFFF⟩, by decide, rfl, by decide⟩
theorem enew : Statement .enew := fun _ =>
  ⟨by decide, by decide, ⟨"ENEW", 0x10000000, 0xFFFFFFFF⟩, by decide, rfl, by decide⟩
theorem efromms : Statement .efromms := fun _ =>
  ⟨by decide, by decide, ⟨"EFROMMS", 0x11000000, 0xFFFFFFFF⟩, by decide, rfl, by decide⟩
theorem ecanx : Statement .ecanx := fun _ =>
  ⟨by decide, by decide, ⟨"ECANX", 0x13000000, 0xFFFFFFFF⟩, by decide, rfl, by decide⟩
theorem emid : Statement .emid := fun _ =>
  ⟨by decide, by decide, ⟨"EMID", 0x14000000, 0xFFFFFFFF⟩, by decide, rfl, by decide⟩
theorem efinal : Statement .efinal := fun _ =>
  ⟨by decide, by decide, ⟨"EFINAL", 0x15000000, 0xFFFFFFFF⟩, by decide, rfl, by decide⟩
theorem mparts : Statement .mparts := fun _ =>
  ⟨by decide, by decide, ⟨"MPARTS", 0x21000000, 0xFFFFFFFF⟩, by decide, rfl, by decide⟩
theorem dread : Statement .dread := fun _ =>
  ⟨by decide, by decide, ⟨"DREAD", 0x30000000, 0xFFFFFFFF⟩, by decide, rfl, by decide⟩
theorem xnew : Statement .xnew := fun _ =>
  ⟨by decide, by decide, ⟨"XNEW", 0x40000000, 0xFFFFFFFF⟩, by decide, rfl, by decide⟩
theorem xfull : Statement .xfull := fun _ =>
  ⟨by decide, by decide, ⟨"XFULL", 0x43000000, 0xFFFFFFFF⟩, by decide, rfl, by decide⟩
theorem xstr : Statement .xstr := fun _ =>
  ⟨by decide, by decide, ⟨"XSTR", 0x44000000, 0xFFFFFFFF⟩, by decide, rfl, by decide⟩
theorem xclear : Statement .xclear := fun _ =>
  ⟨by decide, by decide, ⟨"XCLEAR", 0x45000000, 0xFFFFFFFF⟩, by decide, rfl, by decide⟩

theorem xputd (c : Case) : Statement (.xputd c) := fun _ => by
  refine ⟨?_, ?_, ⟨"XPUTD", 0x46000000, 0xFFFEFFFF⟩, by decide, rfl, ?_⟩ <;> cases c <;> decide

theorem xputb (byte : Byte) (c : Case) : Statement (.xputb byte c) := fun _ => by
  refine ⟨?_, ?_, ⟨"XPUTB", 0x41000000, 0xFFFEFF00⟩, by decide, rfl, ?_⟩
  · have h : (byte.setWidth 16).extractLsb' 8 8 = 0#8 := by
      apply BitVec.eq_of_getLsbD_eq
      intro i hi
      simp [hi]
    simp only [checkHeader, Instr.header, hdrOp_mkHeader, hdrRsv_mkHeader, hdrC_mkHeader, hdrArg_mkHeader, ofCode_code]
    simp [Instr.opcode, Instr.arg, Opcode.hasCase, h]
  · rw [paylen_of_op (o := .xputb) (by simp [Instr.header, Instr.opcode])]
    rfl
  · have hm : (0xFFFEFF00 : Word) = 0xFF#8 ++ 0x7F#7 ++ BitVec.ofBool false ++ 0xFF00#16 := by decide
    have ha : byte.setWidth 16 &&& 0xFF00#16 = 0 := by
      apply BitVec.eq_of_getLsbD_eq
      intro i hi
      interval_cases i <;> simp
    simp only [OpRow.selects, Instr.header, hm, mkHeader_and, Instr.arg, ha, Instr.opcode, Bool.and_false]
    decide

theorem mnew (bytes : Bytes32) (n : U64) : Statement (.mnew bytes n) := fun _ => by
  have h : (Instr.mnew bytes n).header = 0x20000000 := by
    simp only [Instr.header, Instr.opcode, Instr.caseBit, Instr.arg]
    decide
  have hc : checkHeader 0x20000000 = .ok .mnew := by decide
  have hp : paylen 0x20000000 = 40 := by decide
  rw [h]
  refine ⟨hc, ?_, ⟨"MNEW", 0x20000000, 0xFFFFFFFF⟩, by decide, rfl, by decide⟩
  rw [hp]
  simp [Instr.payload]

/-- The three commands of format `V`: the header is legal and announces the payload's length. -/
theorem variable_payload {i : Instr} (hf : i.opcode.format = .V) (hc : i.caseBit = true → i.opcode.hasCase = true)
    (ha : i.arg = BitVec.ofNat 16 i.payload.length) (hl : i.payload.length ≤ maxPayload) :
    checkHeader i.header = .ok i.opcode ∧ i.payload.length = paylen i.header := by
  constructor
  · simp only [checkHeader, Instr.header, hdrOp_mkHeader, hdrRsv_mkHeader, hdrC_mkHeader, hdrArg_mkHeader, ofCode_code]
    have hx : i.opcode ≠ .xputb := by
      intro h
      rw [h] at hf
      cases hf
    have hcc : ¬ (i.caseBit = true ∧ i.opcode.hasCase = false) := by
      rintro ⟨h1, h2⟩
      rw [hc h1] at h2
      cases h2
    simp [hcc, hf, hx]
  · rw [paylen_of_op (o := i.opcode) (by simp [Instr.header]), hf, Instr.header, hdrArg_mkHeader, ha, arg_length hl]

/-- A row whose mask leaves `arg` free, and `c` free or 0, is selected whatever `arg` is. -/
theorem variable_payload_selects {name : String} {pat mask : Word} (i : Instr) (mc : Bool)
    (hm : mask = 0xFF#8 ++ 0x7F#7 ++ BitVec.ofBool mc ++ 0#16)
    (hp : mkHeader i.opcode.code (i.caseBit && mc) 0 = pat) : (OpRow.mk name pat mask).selects i.header = true := by
  simp only [OpRow.selects, Instr.header, hm, mkHeader_and]
  simpa using hp

theorem einput (bytes : List Byte) : Statement (.einput bytes) := fun hw => by
  have hl : bytes.length ≤ maxPayload := by simpa [Instr.WellFormed, Instr.wellFormed] using hw
  obtain ⟨h1, h2⟩ := variable_payload (i := .einput bytes) rfl (fun h => by cases h) rfl hl
  refine ⟨h1, h2, ⟨"EINPUT", 0x12000000, 0xFFFF0000⟩, by decide, rfl, ?_⟩
  refine variable_payload_selects _ true (by decide) ?_
  simp only [Instr.opcode, Instr.caseBit]
  decide

theorem mtag (tag : List Byte) : Statement (.mtag tag) := fun hw => by
  have hl : tag.length ≤ maxPayload := by simpa [Instr.WellFormed, Instr.wellFormed] using hw
  obtain ⟨h1, h2⟩ := variable_payload (i := .mtag tag) rfl (fun h => by cases h) rfl hl
  refine ⟨h1, h2, ⟨"MTAG", 0x22000000, 0xFFFF0000⟩, by decide, rfl, ?_⟩
  refine variable_payload_selects _ true (by decide) ?_
  simp only [Instr.opcode, Instr.caseBit]
  decide

theorem xputn (bytes : List Byte) (c : Case) : Statement (.xputn bytes c) := fun hw => by
  have hl : bytes.length ≤ maxPayload := by simpa [Instr.WellFormed, Instr.wellFormed] using hw
  obtain ⟨h1, h2⟩ := variable_payload (i := .xputn bytes c) rfl (fun _ => rfl) rfl hl
  refine ⟨h1, h2, ⟨"XPUTN", 0x42000000, 0xFFFE0000⟩, by decide, rfl, ?_⟩
  refine variable_payload_selects _ false (by decide) ?_
  simp only [Instr.opcode, Instr.caseBit, Bool.and_false]
  decide

end Sys2Proof.Laws.HeaderNamesCommand
end

