-- ==== Sys2Proof/Machine/Listing.lean ====
section
/-! DEFINITION. The listing syntax of spec/30_encoding.md R108: one line per command, the mnemonic and then its operands separated
by commas; byte sequences in the x"…" form, a byte as 0x and two digits, a count in decimal. -/

namespace Sys2Proof.Machine

/-- Two hexadecimal digits per byte, first byte first. -/
def listingHex (bytes : List Byte) : String :=
  String.ofList ((bytes.flatMap fun b => hexPair b .lower).map fun d => Char.ofNat d.toNat)

/-- A byte sequence as x"…" (R108). -/
def listingBytes (bytes : List Byte) : String := "x\"" ++ listingHex bytes ++ "\""

/-- A case (R108). -/
def listingCase : Case → String
  | .lower => "lower"
  | .upper => "upper"

/-- The operands of a command, as R108 writes them. -/
def listingOperands : Instr → List String
  | .einput bytes => [listingBytes bytes]
  | .mnew bytes n => [listingBytes bytes.toList, toString n.toNat]
  | .mtag tag => [listingBytes tag]
  | .xputb byte c => ["0x" ++ listingHex [byte], listingCase c]
  | .xputn bytes c => [listingBytes bytes, listingCase c]
  | .xputd c => [listingCase c]
  | .sstat | .enew | .efromms | .ecanx | .emid | .efinal | .mparts | .dread
  | .xnew | .xfull | .xstr | .xclear => []

/-- One line of a listing (R108). -/
def listingLine (i : Instr) : String :=
  match listingOperands i with
  | [] => i.mnemonic
  | ops => i.mnemonic ++ " " ++ String.intercalate ", " ops

end Sys2Proof.Machine
end

