-- ==== Sys2Proof/Tests/Slice0.lean ====
section
/-! SUPPORT. Tests: terms the well-formedness check refuses, words written out from the spec's encoding with what they decode to, one
step of each command with expected results from spec/95_test_vectors.md, and for every statement with hypotheses a state and operands
that meet them. -/

namespace Sys2Proof.Tests

open Sys2Proof Sys2Proof.Machine

/-! ### States -/

/-- A live block with no object, `CAP = 64`. -/
def live : State := { State.reset with cap := ⟨31⟩ }

/-- The same with the smallest capacity, `CAP = 2`. -/
def liveTwo : State := { State.reset with cap := ⟨0⟩ }

/-- The engine ENEW leaves. -/
def freshEngine : Engine := ⟨ivRom, [], 0⟩

/-- The engine after ENEW and EINPUT "abc". -/
def abcEngine : Engine := ⟨ivRom, [0x61, 0x62, 0x63], 3⟩

/-- The 32 bytes 00, 01, … 1f of spec/95 4.1. -/
def countBytes : Bytes32 := Vector.ofFn fun i => BitVec.ofNat 8 i.val

/-- A block whose four objects exist, `CAP = 8`, with the text "2a" in the encoder. -/
def full : State :=
  { State.reset with
    cap := ⟨3⟩
    engine := some abcEngine
    midstate := some ⟨countBytes, 64⟩
    digest := some countBytes
    encoder := some ⟨[0x32, 0x61]⟩ }

/-- A block halted by `F_NOOBJ`, missing engine. -/
def dead : State := { full with halt := true, fcode := 2, finfo := 1 }

/-- A state with these bytes as its command stream. -/
def sent (bytes : List Byte) (s : State) : State := { s with cmd := bytes }

/-- The last response of a result. -/
def answer (r : Result) : Option Response := (nextState r).bind fun t => t.rsp.getLast?

/-- One part of the state a result goes on with. -/
def after {α : Type} (r : Result) (f : State → α) : Option α := (nextState r).map f

/-! ### Well-formedness: one ill-formed term for each check -/

theorem test_too_long : ¬ decide ((List.replicate 65536 (0 : Byte)).length ≤ maxPayload) = true := by
  rw [List.length_replicate]
  decide

theorem test_wf_refuses_einput : ¬ (Instr.einput (List.replicate 65536 0)).WellFormed :=
  test_too_long

theorem test_wf_refuses_mtag : ¬ (Instr.mtag (List.replicate 65536 0)).WellFormed :=
  test_too_long

theorem test_wf_refuses_xputn : ¬ (Instr.xputn (List.replicate 65536 0) .upper).WellFormed :=
  test_too_long

theorem test_wf_admits_longest : (Instr.einput (List.replicate 65535 0)).WellFormed := by
  show decide ((List.replicate 65535 (0 : Byte)).length ≤ maxPayload) = true
  rw [List.length_replicate]
  decide

/-! ### Decoding: the header of every command, written out from the opcode map (R92, R96; spec/95 section 7) -/

theorem test_decode_sstat : decode [0x01, 0, 0, 0] = .packet .sstat [] := by decide
theorem test_decode_enew : decode [0x10, 0, 0, 0, 0x15] = .packet .enew [0x15] := by decide
theorem test_decode_efromms : decode [0x11, 0, 0, 0] = .packet .efromms [] := by decide
theorem test_decode_einput :
    decode [0x12, 0, 0, 3, 0x61, 0x62, 0x63, 0x15, 0, 0, 0] = .packet (.einput [0x61, 0x62, 0x63]) [0x15, 0, 0, 0] := by decide
theorem test_decode_ecanx : decode [0x13, 0, 0, 0] = .packet .ecanx [] := by decide
theorem test_decode_emid : decode [0x14, 0, 0, 0] = .packet .emid [] := by decide
theorem test_decode_efinal : decode [0x15, 0, 0, 0] = .packet .efinal [] := by decide
theorem test_decode_mnew :
    decode ([0x20, 0, 0, 0] ++ [0x00, 0x01, 0x02, 0x03, 0x04, 0x05, 0x06, 0x07, 0x08, 0x09, 0x0a, 0x0b, 0x0c, 0x0d, 0x0e, 0x0f] ++
      [0x10, 0x11, 0x12, 0x13, 0x14, 0x15, 0x16, 0x17, 0x18, 0x19, 0x1a, 0x1b, 0x1c, 0x1d, 0x1e, 0x1f] ++
      [0x01, 0, 0, 0, 0, 0, 0x02, 0x40]) = .packet (.mnew countBytes 0x0100000000000240) [] := by decide
theorem test_decode_mparts : decode [0x21, 0, 0, 0] = .packet .mparts [] := by decide
theorem test_decode_mtag : decode [0x22, 0, 0, 3, 0x74, 0x61, 0x67] = .packet (.mtag [0x74, 0x61, 0x67]) [] := by decide
theorem test_decode_dread : decode [0x30, 0, 0, 0] = .packet .dread [] := by decide
theorem test_decode_xnew : decode [0x40, 0, 0, 0] = .packet .xnew [] := by decide
theorem test_decode_xputb_upper : decode [0x41, 0x01, 0, 0xFF] = .packet (.xputb 0xFF .upper) [] := by decide
theorem test_decode_xputb_lower : decode [0x41, 0, 0, 0x2A] = .packet (.xputb 0x2A .lower) [] := by decide
theorem test_decode_xputn : decode [0x42, 0x01, 0, 2, 1, 2] = .packet (.xputn [1, 2] .upper) [] := by decide
theorem test_decode_xfull : decode [0x43, 0, 0, 0] = .packet .xfull [] := by decide
theorem test_decode_xstr : decode [0x44, 0, 0, 0] = .packet .xstr [] := by decide
theorem test_decode_xclear : decode [0x45, 0, 0, 0] = .packet .xclear [] := by decide
theorem test_decode_xputd : decode [0x46, 0x01, 0, 0] = .packet (.xputd .upper) [] := by decide

/-- The illegal headers of spec/95 6.2 without a payload. -/
theorem test_decode_illegal :
    ∀ b ∈ ([[0, 0, 0, 0], [0xFF, 0xFF, 0xFF, 0xFF], [0x02, 0, 0, 0], [0x16, 0, 0, 0], [0x47, 0, 0, 0], [0x10, 0, 0, 1],
        [0x10, 1, 0, 0], [0x10, 2, 0, 0], [0x12, 0x80, 0, 0], [0x41, 0, 1, 0], [0x41, 2, 0, 0x2A], [0x46, 0, 0, 1],
        [0x01, 0, 0, 1], [0x22, 1, 0, 0], [0x31, 0, 0, 0], [0x46, 2, 0, 0]] : List (List Byte)),
      (match decode b with
        | .illegal _ _ rest => rest.isEmpty
        | _ => false) = true := by decide

/-- spec/95 6.2: the payload of an illegal header is consumed; spec/95 7: the second header changed to length 7 is two packets and a
wait. -/
theorem test_decode_framing :
    decode [0x12, 1, 0, 3, 0x61, 0x62, 0x63, 0x15] = .illegal 0x12010003 .caseSet [0x15] ∧
    decode [0x12, 0, 0, 7, 0x61, 0x62, 0x63, 0x15, 0, 0, 0] = .packet (.einput [0x61, 0x62, 0x63, 0x15, 0, 0, 0]) [] ∧
    decode [0x12, 0, 0, 8, 0x61, 0x62, 0x63, 0x15, 0, 0, 0] = .incomplete := by decide

theorem test_encode : encode (.xputn [0xde, 0xad] .upper) = [0x42, 0x01, 0x00, 0x02, 0xde, 0xad] ∧
    encode (.xputb 0x2a .lower) = [0x41, 0x00, 0x00, 0x2a] ∧ encode (.mtag []) = [0x22, 0, 0, 0] := by decide

theorem test_decodeTableWord : decodeTableWord 32 0x15000000 = some .efinal ∧ decodeTableWord 32 0x12000002 = some (.einput [0, 0]) ∧
    decodeTableWord 40 0x6112000001 = some (.einput [0x61]) ∧ decodeTableWord 32 0x41000100 = none := by decide

theorem test_withFetchWord : after (step (State.reset.withFetchWord 32 0x01000000)) State.cmd = some [] ∧
    answer (step (State.reset.withFetchWord 32 0x01000000)) = some ⟨.ok, [0, 0, 0, 0, 0, 0, 0, 0, 0, 0]⟩ := by decide

/-- R108, in the listings of spec/95. -/
theorem test_listing : listingLine (.xputn [0xde, 0xad, 0xbe, 0xef] .lower) = "XPUTN x\"deadbeef\", lower" ∧
    listingLine (.xputb 0x2a .upper) = "XPUTB 0x2a, upper" ∧ listingLine .enew = "ENEW" := by decide

/-! ### One step of each command (spec/95, where a section is named) -/

/-- 6.3, line 8. -/
theorem test_sstat : answer (exec .sstat { live with
    engine := some freshEngine
    encoder := some ⟨[]⟩
    halt := true
    fcode := 1
    finfo := 0x99000000 }) = some ⟨.ok, [0x13, 1, 0, 0, 0, 0, 0x99, 0, 0, 0]⟩ := by decide
/-- P1, line 15. -/
theorem test_sstat_live : answer (exec .sstat { live with digest := some countBytes, encoder := some ⟨[]⟩ }) =
    some ⟨.ok, [0x18, 0, 0, 0, 0, 0, 0, 0, 0, 0]⟩ := by decide
/-- R160: a live engine is replaced without trace. -/
theorem test_enew : after (exec .enew full) State.engine = some (some freshEngine) := by decide
/-- R162 and 20_memory R66, by hand: `H[1]` is `04050607`. -/
theorem test_efromms : after (exec .efromms full) (fun t => (t.engine.map fun e => (e.h[1], e.buf, e.n), t.midstate)) =
    some (some (0x04050607, [], 64), some ⟨countBytes, 64⟩) := by decide
/-- P5, line 2. -/
theorem test_einput_waits : after (exec (.einput [0x61, 0x62, 0x63]) { live with engine := some freshEngine }) State.engine =
    some (some abcEngine) := by decide
/-- P2, lines 2 and 3: 64 bytes are one compression, and the buffer is empty again. -/
theorem test_einput_block : after (exec (.einput (List.replicate 64 0x61)) { live with engine := some freshEngine })
    (fun t => t.engine.map fun e => (e.h, e.buf, e.n)) =
    some (some (#v[0xdf5bb81c, 0xe81e0626, 0xfb45a894, 0x4fd40f31, 0xb25e6816, 0xd6d499c1, 0xab904929, 0x00635e66], [], 64)) := by
  decide +kernel
theorem test_ecanx : answer (exec .ecanx { live with engine := some freshEngine }) = some ⟨.ok, [1]⟩ ∧
    answer (exec .ecanx full) = some ⟨.ok, [0]⟩ := by decide
/-- P2, line 3. -/
theorem test_emid : answer (exec .emid { live with engine := some ⟨#v[0xdf5bb81c, 0xe81e0626, 0xfb45a894, 0x4fd40f31, 0xb25e6816,
      0xd6d499c1, 0xab904929, 0x00635e66], [], 64⟩ }) = some ⟨.ok, [0xdf, 0x5b, 0xb8, 0x1c, 0xe8, 0x1e, 0x06, 0x26, 0xfb, 0x45,
      0xa8, 0x94, 0x4f, 0xd4, 0x0f, 0x31, 0xb2, 0x5e, 0x68, 0x16, 0xd6, 0xd4, 0x99, 0xc1, 0xab, 0x90, 0x49, 0x29, 0x00, 0x63, 0x5e,
      0x66, 0, 0, 0, 0, 0, 0, 0, 0x40]⟩ := by decide
/-- P5, line 3. -/
theorem test_emid_off_boundary : exec .emid full = .next { full with rsp := [⟨.errBoundary, [0, 0, 0, 0, 0, 0, 0, 3]⟩] } := rfl
/-- S1: the digest of the empty message; the engine is consumed. -/
theorem test_efinal : after (exec .efinal { live with engine := some freshEngine }) (fun t => (t.rsp, t.engine)) =
    some ([⟨.ok, [0xe3, 0xb0, 0xc4, 0x42, 0x98, 0xfc, 0x1c, 0x14, 0x9a, 0xfb, 0xf4, 0xc8, 0x99, 0x6f, 0xb9, 0x24, 0x27, 0xae, 0x41,
      0xe4, 0x64, 0x9b, 0x93, 0x4c, 0xa4, 0x95, 0x99, 0x1b, 0x78, 0x52, 0xb8, 0x55]⟩], none) := by decide +kernel
/-- P5, line 4: `SHA256("abc")`, in the digest register. -/
theorem test_efinal_abc : after (exec .efinal { live with engine := some abcEngine }) (fun t => t.digest.map Vector.toList) =
    some (some [0xba, 0x78, 0x16, 0xbf, 0x8f, 0x01, 0xcf, 0xea, 0x41, 0x41, 0x40, 0xde, 0x5d, 0xae, 0x22, 0x23, 0xb0, 0x03, 0x61,
      0xa3, 0x96, 0x17, 0x7a, 0x9c, 0xb4, 0x10, 0xff, 0x61, 0xf2, 0x00, 0x15, 0xad]) := by decide +kernel
theorem test_mnew : after (exec (.mnew countBytes 0xFFFFFFFFFFFFFFC0) live) State.midstate =
    some (some ⟨countBytes, 0xFFFFFFFFFFFFFFC0⟩) := by decide
/-- 6.4: the operand check; a midstate held before survives (R191). -/
theorem test_mnew_fault : after (exec (.mnew countBytes 3) full) (fun t => (t.rsp, t.midstate, t.halt)) =
    some ([⟨.fault, [3, 0, 0, 0, 0, 0, 0, 0, 3]⟩], some ⟨countBytes, 64⟩, true) := by decide
theorem test_mparts : answer (exec .mparts full) = some ⟨.ok, countBytes.toList ++ [0, 0, 0, 0, 0, 0, 0, 0x40]⟩ := by decide
/-- P3, line 1. -/
theorem test_mtag : answer (exec (.mtag [0x74, 0x61, 0x67]) live) = some ⟨.ok, [0x83, 0xb6, 0x64, 0x29, 0x36, 0xcd, 0x45, 0xf0, 0x51,
      0xcd, 0xc6, 0x6f, 0x3c, 0xce, 0x27, 0x95, 0x83, 0x58, 0x3b, 0xb8, 0xd2, 0x2b, 0xfd, 0x2b, 0xce, 0xf8, 0x23, 0x20, 0x7c, 0x10,
      0x04, 0x4f, 0, 0, 0, 0, 0, 0, 0, 0x40]⟩ := by decide +kernel
theorem test_dread : answer (exec .dread full) = some ⟨.ok, countBytes.toList⟩ := by decide
theorem test_xnew : after (exec .xnew full) State.encoder = some (some ⟨[]⟩) ∧
    after (exec .xnew live) State.encoder = some (some ⟨[]⟩) := by decide
/-- S3. -/
theorem test_xputb : after (exec (.xputb 0x2a .lower) { liveTwo with encoder := some ⟨[]⟩ }) State.encoder = some (some ⟨[0x32, 0x61]⟩) ∧
    after (exec (.xputb 0x2a .upper) { liveTwo with encoder := some ⟨[]⟩ }) State.encoder = some (some ⟨[0x32, 0x41]⟩) := by decide
/-- 5.3: the single-byte form on a full buffer. -/
theorem test_xputb_full : exec (.xputb 0 .lower) { liveTwo with encoder := some ⟨[0x46, 0x46]⟩ } = .next { liveTwo with
    encoder := some ⟨[0x46, 0x46]⟩
    halt := true
    fcode := 4
    finfo := 1
    rsp := [⟨.fault, [4, 0, 0, 0, 0, 0, 0, 0, 1]⟩] } := rfl
/-- P4, line 2. -/
theorem test_xputn : after (exec (.xputn [0xde, 0xad, 0xbe, 0xef] .lower) { full with encoder := some ⟨[]⟩ }) State.encoder =
    some (some ⟨[0x64, 0x65, 0x61, 0x64, 0x62, 0x65, 0x65, 0x66]⟩) := by decide
/-- P4, line 9: two bytes where one would fit write nothing. -/
theorem test_xputn_capacity :
    after (exec (.xputn [3, 4] .lower) { full with encoder := some ⟨[0x32, 0x41, 0x30, 0x31, 0x30, 0x32]⟩ })
      (fun t => (t.rsp, t.encoder)) =
    some ([⟨.fault, [4, 0, 0, 0, 0, 0, 0, 0, 2]⟩], some ⟨[0x32, 0x41, 0x30, 0x31, 0x30, 0x32]⟩) := by decide
theorem test_xfull : answer (exec .xfull { liveTwo with encoder := some ⟨[0x32, 0x61]⟩ }) = some ⟨.ok, [1]⟩ ∧
    answer (exec .xfull full) = some ⟨.ok, [0]⟩ := by decide
theorem test_xstr : answer (exec .xstr full) = some ⟨.ok, [0x32, 0x61]⟩ := by decide
theorem test_xclear : after (exec .xclear full) State.encoder = some (some ⟨[]⟩) := by decide
/-- P1, line 6, by R211: the first and last characters of the text of the digest 00 … 1f. -/
theorem test_xputd : after (exec (.xputd .upper) { live with digest := some countBytes, encoder := some ⟨[]⟩ })
    (fun t => t.encoder.map fun x => (x.xbuf.take 6, x.xbuf.drop 60)) =
    some (some ([0x30, 0x30, 0x30, 0x31, 0x30, 0x32], [0x31, 0x45, 0x31, 0x46])) := by decide
/-- 6.4: the digest is looked for before the encoder. -/
theorem test_xputd_order : answer (exec (.xputd .lower) live) = some ⟨.fault, [2, 0, 0, 0, 0, 0, 0, 0, 3]⟩ := by decide

/-- The wire form of a response (6.1). -/
theorem test_response_bytes : responseBytes ⟨.fault, [2, 0, 0, 0, 0, 0, 0, 0, 1]⟩ =
    [0xFE, 0x00, 0x09, 0x02, 0, 0, 0, 0, 0, 0, 0, 1] := by decide

/-- 2.1, a column of each function. -/
theorem test_functions : bigSigma0 0x12345678 = 0x66146474 ∧ bigSigma1 0x12345678 = 0x3561abda ∧
    smallSigma0 0x12345678 = 0xe7fce6ee ∧ smallSigma1 0x12345678 = 0xa1f78649 ∧
    ch 0xf0f0f0f0 0xaaaaaaaa 0x55555555 = 0xa5a5a5a5 ∧ maj 0xf0f0f0f0 0xaaaaaaaa 0x55555555 = 0xf0f0f0f0 := by decide

/-- 2.3, the first round of `COMPRESS(IV, PAD(0))`. -/
theorem test_round : compressRound (Working.ofState ivRom) 0x428a2f98 0x80000000 = ⟨0x7c08884d, 0x6a09e667, 0xbb67ae85, 0x3c6ef372,
    0x18c7e2a2, 0x510e527f, 0x9b05688c, 0x1f83d9ab⟩ := by decide

/-- 3.1: `PAD(55)` and the largest count EFINAL admits. -/
theorem test_padding : padding 55 = [0x80, 0, 0, 0, 0, 0, 0, 0x01, 0xb8] ∧ (padding 56).length = 72 ∧
    (padding 2305843009213693951).drop 57 = [0xff, 0xff, 0xff, 0xff, 0xff, 0xff, 0xff, 0xf8] := by decide

/-! ### Witnesses: for every statement with hypotheses, concrete states and operands that meet them, one for each clause, at the ends
of the ranges -/

theorem test_witness_PacketsAndCommandsCorrespond : decode (encode (.xputn [7] .upper) ++ [1]) = .packet (.xputn [7] .upper) [1] ∧
    (Instr.xputn [7] .upper).WellFormed := by decide
/-- One header for each of the five conditions, which meets no other, a legal one, and a packet of an illegal one. -/
theorem test_witness_IllegalHeaderIffNoRowMatches : checkHeader 0x00000000 = .error .undefinedOpcode ∧
    checkHeader 0x10020000 = .error .reservedSet ∧ checkHeader 0x10010000 = .error .caseSet ∧
    checkHeader 0x10000001 = .error .argSet ∧ checkHeader 0x41000100 = .error .byteTooWide ∧
    checkHeader 0x1200FFFF = .ok .einput ∧ live.halt = false ∧ ([] : List Byte).length = paylen 0x10000001 ∧
    (sent (bytesBe32 0x10000001 ++ [] ++ [9]) live).cmd = bytesBe32 0x10000001 ++ [] ++ [9] := by decide
/-- A header of each end of the free fields' ranges. -/
theorem test_witness_HeaderSelectsItsRow : (∃ r ∈ opTable, (0x4101002A : Word) &&& r.mask = r.pattern) ∧
    ([] : List Byte).length = paylen 0x4101002A ∧ (∃ r ∈ opTable, (0x12000000 : Word) &&& r.mask = r.pattern) ∧
    ([] : List Byte).length = paylen 0x12000000 ∧ (∃ r ∈ opTable, (0x1200FFFF : Word) &&& r.mask = r.pattern) ∧
    (∃ r ∈ opTable, (0x4201FFFF : Word) &&& r.mask = r.pattern) := by decide
theorem test_witness_FramingFollowsPaylen : checkHeader 0x12000002 = .ok .einput ∧ ([1, 2] : List Byte).length = paylen 0x12000002 ∧
    checkHeader 0x46000001 = .error .argSet ∧ ([] : List Byte).length = paylen 0x46000001 ∧
    ([1] : List Byte).length < paylen 0x12000002 ∧ ([0x12, 0, 0] : List Byte).length < 4 ∧
    decode (sent [0x12, 0, 0] live).cmd = .incomplete := by decide
theorem test_witness_BlockWaitsForWholePacket : step (sent [0x12, 0, 0] live) = .fault .awaitingPacket ∧
    step (sent (bytesBe32 0x12000002 ++ [1]) live) = .fault .awaitingPacket ∧ ([1] : List Byte).length < paylen 0x12000002 ∧
    (nextState (step (sent (bytesBe32 0x12000002 ++ [1, 2]) live))).isSome = true := ⟨rfl, rfl, by decide, by decide⟩
theorem test_witness_StepExecutesDecodedCommand : decode (sent [0x30, 0, 0, 0, 9] full).cmd = .packet .dread [9] := by decide
theorem test_witness_IllegalHeaderFaults : live.halt = false ∧ ([1, 2, 3] : List Byte).length = paylen 0x12010003 ∧
    (sent (bytesBe32 0x12010003 ++ [1, 2, 3] ++ [9]) live).cmd = bytesBe32 0x12010003 ++ [1, 2, 3] ++ [9] ∧
    ∀ r ∈ opTable, (0x12010003 : Word) &&& r.mask ≠ r.pattern := by decide
theorem test_witness_HaltedBlockOnlyAnswersSstat : dead.halt = true ∧ decode (sent [0x10, 0, 0, 0] dead).cmd = .packet .enew [] ∧
    decode (sent [0x01, 0, 0, 1] dead).cmd = .illegal 0x01000001 .argSet [] ∧
    decode (sent [0x01, 0, 0, 0] dead).cmd = .packet .sstat [] ∧
    step (sent [0x10, 0, 0, 0] dead) = .next dead.refusedHalted := ⟨rfl, by decide, by decide, by decide, rfl⟩
theorem test_witness_OneResponsePerPacket : step (sent [0x30, 0, 0, 0] full) = .next (full.answered countBytes.toList) := rfl
theorem test_witness_FaultEntryChangesNothingElse : step (sent [0x44, 0, 0, 0] live) = .next (live.faulted 2 4) ∧ live.halt = false ∧
    (live.faulted 2 4).halt = true ∧ ([] : List Byte).length = paylen 0x44000000 ∧
    (sent [0x44, 0, 0, 0] live).cmd = bytesBe32 0x44000000 ++ [] ++ (live.faulted 2 4).cmd := ⟨rfl, rfl, rfl, by decide, by decide⟩
/-- Every code each list admits is taken somewhere, and a command of the first list completes. -/
theorem test_witness_FaultsComeFromTheirCommands : live.halt = false ∧ full.halt = false ∧
    exec .enew live = .next (State.answered { live with engine := some freshEngine } []) ∧
    exec .mparts live = .next (live.faulted 2 2) ∧ exec .efinal live = .next (live.faulted 2 1) ∧
    exec .efinal { live with engine := some ⟨ivRom, [], 0x2000000000000000⟩ } =
      .next (State.faulted { live with engine := some ⟨ivRom, [], 0x2000000000000000⟩ } 5 0x2000000000000000) ∧
    exec (.mnew countBytes 63) live = .next (live.faulted 3 63) ∧ exec (.xputb 0 .lower) live = .next (live.faulted 2 4) ∧
    exec (.xputd .lower) full = .next (full.faulted 4 32) := ⟨rfl, rfl, rfl, rfl, rfl, rfl, rfl, rfl, rfl⟩
theorem test_witness_MissingObjectFaults : full.halt = false ∧ (0xFFFFFFFFFFFFFFC0 : U64).toNat % 64 = 0 ∧ full.midstate ≠ none ∧
    { live with engine := some freshEngine }.engine = some freshEngine ∧ freshEngine.n.toNat % 64 = 0 ∧
    full.engine = some abcEngine ∧ abcEngine.n.toNat < 2 ^ 61 ∧ live.halt = false ∧ live.engine = none ∧ live.midstate = none ∧ live.digest = none ∧
    live.encoder = none ∧ { live with digest := some countBytes }.digest ≠ none := by decide
theorem test_witness_StepKeepsInvariant : full.Inv ∧ dead.Inv ∧ step (sent [0x45, 0, 0, 0] full) =
    .next (State.answered { full with encoder := some ⟨[]⟩ } []) := ⟨by decide, by decide, rfl⟩
theorem test_witness_ResetMeetsInvariant : full.Inv ∧ (full.answered []).Inv ∧
    hostTake (full.answered []) = some (⟨.ok, []⟩, full) := ⟨by decide, by decide, rfl⟩
/-- The two ends of the range of `CAP`. -/
theorem test_witness_CapacityIsFixed : (Cap.mk 0).size = 2 ∧ (Cap.mk 32766).size = 65534 ∧
    step (sent [0x40, 0, 0, 0] liveTwo) = .next (State.answered { liveTwo with encoder := some ⟨[]⟩ } []) := ⟨rfl, rfl, rfl⟩
/-- A command that writes no object, one that writes one, one that faults, and one refused. -/
theorem test_witness_CommandsWriteOnlyTheirRow : exec .xstr full = .next (full.answered [0x32, 0x61]) ∧
    writesEngine .xstr = false ∧ writesMidstate .xstr = false ∧ writesDigest .xstr = false ∧ writesEncoder .xstr = false ∧
    exec .xclear full = .next (State.answered { full with encoder := some ⟨[]⟩ } []) ∧
    exec (.mnew countBytes 1) full = .next (full.faulted 3 1) ∧ exec .xclear dead = .next dead.refusedHalted ∧
    exec (.xputb 0xFF .lower) full = .next (State.answered { full with encoder := some ⟨[0x32, 0x61, 0x66, 0x66]⟩ } []) ∧
    (Instr.xputb 0xFF .lower).opcode ∈ [Opcode.xputb, .xputn, .xputd] ∧ full.encoder = some ⟨[0x32, 0x61]⟩ ∧
    1 < encoderPos ⟨[0x32, 0x61]⟩ ∧ encoderPos ⟨[0x32, 0x61]⟩ + charsWritten (.xputb 0xFF .lower) ≤ 4 ∧
    Instr.xclear.opcode ∈ [Opcode.xputb, .xputn, .xputd, .xclear] ∧
    exec (.einput []) full = .next (full.answered []) :=
  ⟨rfl, rfl, rfl, rfl, rfl, rfl, rfl, rfl, rfl, by decide, rfl, by decide, by decide, by decide, rfl⟩
theorem test_witness_EncoderIsIndependent : ignoresEncoder .efinal = true ∧ writesEncoder .efinal = false ∧
    ignoresEncoder (.mtag []) = true ∧ writesEncoder (.mtag []) = false := by decide
theorem test_witness_EngineIsIndependent : ignoresEngine (.mtag []) = true ∧ writesEngine (.mtag []) = false ∧
    ignoresEngine (.xputn [1] .lower) = true ∧ writesEngine (.xputn [1] .lower) = false := by decide
theorem test_witness_SigmaFunctionsBitwise : (31 : Nat) < 32 ∧ (0 : Nat) < 32 := by decide
theorem test_witness_ScheduleFollowsRecurrence : 16 ≤ 16 ∧ 16 < 64 ∧ 16 ≤ 63 ∧ 63 < 64 := by decide
theorem test_witness_CompressRunsSixtyFourRounds : 0 < 64 ∧ 63 < 64 := by decide
theorem test_witness_EnewCreatesFreshEngine : live.halt = false ∧ full.halt = false := by decide
theorem test_witness_EfrommsSeedsEngine : live.halt = false ∧ live.midstate = none ∧ full.halt = false ∧
    full.midstate = some ⟨countBytes, 64⟩ ∧ { live with midstate := some ⟨ser ivRom, 0⟩ }.midstate = some ⟨ser ivRom, 0⟩ :=
  ⟨rfl, rfl, rfl, rfl, rfl⟩
/-- The count reaches `2^64 - 1` exactly. -/
theorem test_witness_EinputAbsorbsBlocks : ([] : List Byte).length ≤ 65535 ∧ (List.replicate 65535 (0 : Byte)).length ≤ 65535 ∧
    live.halt = false ∧ live.engine = none ∧ full.engine = some abcEngine ∧ abcEngine.Inv ∧
    (⟨ivRom, List.replicate 62 0, 0xFFFFFFFFFFFFFFFE⟩ : Engine).Inv ∧
    (0xFFFFFFFFFFFFFFFE : U64).toNat + ([1] : List Byte).length ≤ 2 ^ 64 - 1 ∧
    2 ^ 64 - 1 < (0xFFFFFFFFFFFFFFFE : U64).toNat + ([1, 2] : List Byte).length := by
  refine ⟨by decide, ?_, by decide⟩
  rw [List.length_replicate]
theorem test_witness_EinputIsConcatenative : full.halt = false ∧ full.engine = some abcEngine ∧
    ([[1, 2], [], [3]] : List (List Byte)).flatten = ([[1], [2, 3]] : List (List Byte)).flatten ∧
    abcEngine.n.toNat + ([[1, 2], [], [3]] : List (List Byte)).flatten.length ≤ 2 ^ 64 - 1 := by decide
theorem test_witness_EcanxReportsBoundary : live.halt = false ∧ live.engine = none ∧ full.halt = false ∧
    full.engine = some abcEngine := by decide
theorem test_witness_EmidExtractsAtBoundary : live.halt = false ∧ live.engine = none ∧
    { live with engine := some freshEngine }.engine = some freshEngine ∧ freshEngine.n.toNat % 64 = 0 ∧ freshEngine.Inv := by decide
theorem test_witness_EmidOffBoundaryIsRecoverable : full.halt = false ∧ full.engine = some abcEngine ∧ abcEngine.n.toNat % 64 ≠ 0 := by
  decide
theorem test_witness_ResumptionRestoresEngine : { live with engine := some freshEngine }.halt = false ∧
    { live with engine := some freshEngine }.engine = some freshEngine ∧ freshEngine.Inv ∧ freshEngine.n.toNat % 64 = 0 := by decide
/-- Both cases of the padding, at their common boundary and at the largest count. -/
theorem test_witness_PaddingShape : (0 : Nat) < 2 ^ 61 ∧ 2305843009213693951 < 2 ^ 61 ∧ 55 % 64 ≤ 55 ∧ 56 ≤ 56 % 64 ∧
    56 ≤ 2305843009213693951 % 64 := by decide
/-- `r = 55`, `r = 56` and the largest count. -/
theorem test_witness_EfinalPadsCompressesAndConsumes : live.halt = false ∧ live.engine = none ∧ full.engine = some abcEngine ∧
    (⟨ivRom, List.replicate 55 0, 119⟩ : Engine).Inv ∧ 119 % 64 ≤ 55 ∧ (⟨ivRom, List.replicate 56 0, 56⟩ : Engine).Inv ∧
    56 ≤ 56 % 64 ∧ (⟨ivRom, List.replicate 63 0, 0x1FFFFFFFFFFFFFFF⟩ : Engine).Inv ∧ (0x1FFFFFFFFFFFFFFF : U64).toNat < 2 ^ 61 ∧
    2 ^ 61 ≤ (0x2000000000000000 : U64).toNat := by decide
/-- The smallest sum that does not fit and the smallest count that does not. -/
theorem test_witness_LengthFaults : full.halt = false ∧ full.engine = some abcEngine ∧
    2 ^ 64 - 1 < (0xFFFFFFFFFFFFFFFF : U64).toNat + ([1] : List Byte).length ∧ 2 ^ 61 ≤ (0x2000000000000000 : U64).toNat := by decide
theorem test_witness_Sha256FoldsPaddedBlocks : ([] : List Byte).length < 2 ^ 61 := by decide
theorem test_witness_StreamingComputesSha256 : live.halt = false ∧ full.halt = false ∧
    (∀ c ∈ ([[1, 2], []] : List (List Byte)), c.length ≤ 65535) ∧ ([[1, 2], []] : List (List Byte)).flatten.length < 2 ^ 61 := by decide
theorem test_witness_MnewBuildsAlignedMidstate : live.halt = false ∧ (0xFFFFFFFFFFFFFFC0 : U64).toNat % 64 = 0 ∧
    (63 : U64).toNat % 64 ≠ 0 := by decide
theorem test_witness_MpartsReturnsParts : live.halt = false ∧ live.midstate = none ∧ full.halt = false ∧
    full.midstate = some ⟨countBytes, 64⟩ ∧ (⟨countBytes, 64⟩ : Midstate).Inv := by decide
theorem test_witness_MtagBuildsTagMidstate : ([] : List Byte).length ≤ 65535 ∧ live.halt = false := by decide
theorem test_witness_TagComposition : full.halt = false ∧ ([0x74] : List Byte).length ≤ 65535 ∧
    (∀ c ∈ ([[1], [2]] : List (List Byte)), c.length ≤ 65535) ∧ 64 + ([[1], [2]] : List (List Byte)).flatten.length < 2 ^ 61 := by decide
/-- An expansion whose second part faults, cut after it, and a block that was halted before the first part. -/
theorem test_witness_PseudoCommandsExpand : ([] : List Byte).length ≤ 65535 ∧
    expandPseudo (.hex [1, 2, 3, 4, 5] .lower) = [.xclear, .xputn [1, 2, 3, 4, 5] .lower] ++ [.xstr] ∧
    execAll [.xclear, .xputn [1, 2, 3, 4, 5] .lower] full =
      .next (State.faulted (State.answered { full with encoder := some ⟨[]⟩ } []) 4 5) ∧
    expandPseudo (.dhex .upper) = [] ++ [.xclear, .xputd .upper, .xstr] ∧ execAll [] dead = .next dead ∧ dead.halt = true ∧
    65535 < (List.replicate 65536 (0 : Byte)).length := by
  refine ⟨by decide, rfl, rfl, rfl, rfl, rfl, ?_⟩
  rw [List.length_replicate]
  decide
theorem test_witness_HexpairDigits : (9 : Fin 16).val ≤ 9 ∧ 10 ≤ (10 : Fin 16).val ∧ 10 ≤ (15 : Fin 16).val := by decide
theorem test_witness_HexpairCanBeDecoded : hexPair 0x2a .upper = hexPair 0x2a .upper := rfl
theorem test_witness_XnewAndXclearEmptyEncoder : live.halt = false ∧ live.encoder = none ∧ full.halt = false ∧
    full.encoder = some ⟨[0x32, 0x61]⟩ := by decide
/-- Too long: `POS = 2` of `CAP = 2` for one byte, `POS = 2` of `CAP = 8` for four bytes and for the digest. Fitting exactly: one byte
from `POS = 0` of 2, three from `POS = 2` of 8, the digest from `POS = 0` of 64. -/
theorem test_witness_PutChecksCapacityThenWrites : { liveTwo with encoder := some ⟨[0x46, 0x46]⟩ }.halt = false ∧
    { liveTwo with encoder := some ⟨[0x46, 0x46]⟩ }.encoder = some ⟨[0x46, 0x46]⟩ ∧ [0x46#8, 0x46#8].length ≤ liveTwo.cap.size ∧
    liveTwo.cap.size < [0x46#8, 0x46#8].length + 2 ∧ full.halt = false ∧ full.encoder = some ⟨[0x32, 0x61]⟩ ∧
    [0x32#8, 0x61#8].length ≤ full.cap.size ∧ full.cap.size < [0x32#8, 0x61#8].length + 2 * [1, 2, 3, 4].length ∧
    full.digest = some countBytes ∧ full.cap.size < [0x32#8, 0x61#8].length + 64 ∧ ([] : List Byte).length + 2 ≤ liveTwo.cap.size ∧
    [0x32#8, 0x61#8].length + 2 * [1, 2, 3].length ≤ full.cap.size ∧ ([] : List Byte).length + 64 ≤ live.cap.size := by decide
theorem test_witness_XputbEncodesOneByte : live.halt = false ∧ live.encoder = none ∧ full.encoder = some ⟨[0x32, 0x61]⟩ ∧
    (⟨[0x32, 0x61]⟩ : Encoder).Inv full.cap ∧ [0x32#8, 0x61#8].length ≠ full.cap.size ∧
    (⟨[0x32, 0x61]⟩ : Encoder).Inv liveTwo.cap ∧ [0x32#8, 0x61#8].length = liveTwo.cap.size := by decide
/-- Three bytes fit the six places that remain, four do not; and no byte always fits. -/
theorem test_witness_XputnEncodesBytes : ([] : List Byte).length ≤ 65535 ∧ live.halt = false ∧ live.encoder = none ∧
    full.halt = false ∧ full.encoder = some ⟨[0x32, 0x61]⟩ ∧ [0x32#8, 0x61#8].length + 2 * [1, 2, 3].length ≤ full.cap.size ∧
    full.cap.size - [0x32#8, 0x61#8].length < 2 * [1, 2, 3, 4].length := by decide
theorem test_witness_XputnIsAllOrNothing : full.halt = false ∧ full.encoder = some ⟨[0x32, 0x61]⟩ ∧
    (⟨[0x32, 0x61]⟩ : Encoder).Inv full.cap ∧ 2 * [1, 2, 3].length ≤ full.cap.size - [0x32#8, 0x61#8].length ∧
    full.cap.size - [0x32#8, 0x61#8].length < 2 * [1, 2, 3, 4].length := by decide
/-- `CAP = 64` fits a digest exactly from an empty encoder; `CAP = 8` does not. -/
theorem test_witness_XputdEncodesDigest : live.halt = false ∧ live.digest = none ∧ full.halt = false ∧ full.digest = some countBytes ∧
    { full with encoder := none }.encoder = none ∧ full.encoder = some ⟨[0x32, 0x61]⟩ ∧
    full.cap.size - [0x32#8, 0x61#8].length < 64 ∧ 64 ≤ live.cap.size - ([] : List Byte).length := by decide
theorem test_witness_XfullReportsFull : live.halt = false ∧ live.encoder = none ∧ full.halt = false ∧
    full.encoder = some ⟨[0x32, 0x61]⟩ := by decide
theorem test_witness_XstrReturnsText : live.halt = false ∧ live.encoder = none ∧ full.halt = false ∧
    full.encoder = some ⟨[0x32, 0x61]⟩ := by decide
theorem test_witness_XstrTextIsHexDigits : full.Inv ∧ full.halt = false ∧ full.encoder = some ⟨[0x32, 0x61]⟩ := by decide
theorem test_witness_DreadReturnsDigest : live.halt = false ∧ live.digest = none ∧ full.halt = false ∧ full.digest = some countBytes := by
  decide
theorem test_witness_ResponsesFitTheirPackets : full.Inv ∧
    step (sent [0x44, 0, 0, 0] full) = .next (full.answered [0x32, 0x61]) := ⟨by decide, rfl⟩
theorem test_witness_RomsHoldPrimeRoots : (0 : Nat) < 64 ∧ (63 : Nat) < 64 := by decide

end Sys2Proof.Tests
end

section
/-! What the host's reset and sending leave in each field of the state, what an absent object holds (spec/10_state.md R39, R41),
and the statement about reset. -/

namespace Sys2Proof.Machine

/-! ### hostReset -/

@[simp] theorem hostReset_engine (s : State) : (hostReset s).engine = none := rfl
@[simp] theorem hostReset_midstate (s : State) : (hostReset s).midstate = none := rfl
@[simp] theorem hostReset_digest (s : State) : (hostReset s).digest = none := rfl
@[simp] theorem hostReset_encoder (s : State) : (hostReset s).encoder = none := rfl
@[simp] theorem hostReset_halt (s : State) : (hostReset s).halt = false := rfl
@[simp] theorem hostReset_fcode (s : State) : (hostReset s).fcode = 0 := rfl
@[simp] theorem hostReset_finfo (s : State) : (hostReset s).finfo = 0 := rfl
@[simp] theorem hostReset_cap (s : State) : (hostReset s).cap = s.cap := rfl
@[simp] theorem hostReset_cmd (s : State) : (hostReset s).cmd = [] := rfl
@[simp] theorem hostReset_rsp (s : State) : (hostReset s).rsp = [] := rfl

@[simp] theorem hostReset_reset : hostReset State.reset = State.reset := rfl

/-! ### hostSend -/

@[simp] theorem hostSend_cmd (bytes : List Byte) (s : State) : (hostSend bytes s).cmd = s.cmd ++ bytes := rfl

/-! ### The spaces of absent objects -/

theorem spaceBytes_buf_of_engine_none {s : State} (h : s.engine = none) : spaceBytes s .buf = [] := by
  simp [spaceBytes, h]

theorem spaceBytes_mb_of_midstate_none {s : State} (h : s.midstate = none) : spaceBytes s .mb = [] := by
  simp [spaceBytes, h]

theorem spaceBytes_dg_of_digest_none {s : State} (h : s.digest = none) : spaceBytes s .dg = [] := by
  simp [spaceBytes, h]

theorem spaceBytes_xbuf_of_encoder_none {s : State} (h : s.encoder = none) : spaceBytes s .xbuf = [] := by
  simp [spaceBytes, h]

/-- A space that holds no bytes has no value at any index. -/
theorem readByte_of_spaceBytes_nil {s : State} {sp : Space} (h : spaceBytes s sp = []) (a : Nat) :
    readByte s sp a = none := by
  simp [readByte, h]

@[simp] theorem spaceBytes_hostReset (s : State) (sp : Space) : spaceBytes (hostReset s) sp = [] := by
  cases sp with
  | buf => exact spaceBytes_buf_of_engine_none (hostReset_engine s)
  | mb => exact spaceBytes_mb_of_midstate_none (hostReset_midstate s)
  | dg => exact spaceBytes_dg_of_digest_none (hostReset_digest s)
  | xbuf => exact spaceBytes_xbuf_of_encoder_none (hostReset_encoder s)

/-- Settles O15: reset empties every field but `CAP`, and the space of an absent object holds no value. -/
theorem resetLeavesNothing : Obligations.ResetLeavesNothing := by
  unfold Obligations.ResetLeavesNothing
  refine ⟨fun s => ?_, hostReset_reset⟩
  have noValue : ∀ sp a, readByte (hostReset s) sp a = none :=
    fun sp => readByte_of_spaceBytes_nil (spaceBytes_hostReset s sp)
  have sentIsAll : ∀ bytes, (hostSend bytes (hostReset s)).cmd = bytes := fun bytes => by simp
  have noObject : (hostReset s).ev = false ∧ (hostReset s).mv = false ∧ (hostReset s).dv = false ∧
      (hostReset s).xv = false := by simp
  obtain ⟨hev, hmv, hdv, hxv⟩ := noObject
  exact ⟨hostReset_halt s, hostReset_fcode s, hostReset_finfo s, hev, hmv, hdv, hxv, noValue, hostReset_cap s,
    hostReset_cmd s, hostReset_rsp s, sentIsAll⟩

end Sys2Proof.Machine
end

section
/-! What byte `4i + j` of `SER` and word `i` of `DESER` are, that the two maps are inverse to each other (spec/20_memory.md R65, R66),
and the statements about them. -/

namespace Sys2Proof.Machine

/-! ### The bytes of a word and of a list of words -/

/-- R11: byte `j` of `bytes_be32(w)`, at any `j` that names a byte. -/
theorem getD_bytesBe32 (w : Word) {j : Nat} (hj : j < 4) :
    (bytesBe32 w).getD j 0 = w.extractLsb' (24 - 8 * j) 8 := by
  interval_cases j <;> rfl

/-- Byte `j` of an assembled word is the `j`-th of the bytes it was assembled from. -/
theorem extractLsb'_be32 (b0 b1 b2 b3 : Byte) {j : Nat} (hj : j < 4) :
    (be32 b0 b1 b2 b3).extractLsb' (24 - 8 * j) 8 = [b0, b1, b2, b3].getD j 0 := by
  rw [← getD_bytesBe32 _ hj, bytesBe32_be32]

/-- In the bytes of a list of words, each word takes four places. -/
theorem getD_flatMap_bytesBe32 (ws : List Word) {i j : Nat} (hi : i < ws.length) (hj : j < 4) :
    (ws.flatMap bytesBe32).getD (4 * i + j) 0 = ws[i].extractLsb' (24 - 8 * j) 8 := by
  induction ws generalizing i with
  | nil => simp at hi
  | cons w ws ih =>
    rw [List.flatMap_cons]
    cases i with
    | zero =>
      rw [List.getD_append _ _ _ _ (by simpa using hj), Nat.mul_zero, Nat.zero_add, getD_bytesBe32 w hj]
      rfl
    | succ i =>
      have skipWord : 4 * (i + 1) + j - (bytesBe32 w).length = 4 * i + j := by
        rw [length_bytesBe32]
        omega
      rw [List.getD_append_right _ _ _ _ (by rw [length_bytesBe32]; omega), skipWord]
      exact ih (Nat.lt_of_succ_lt_succ hi)

/-! ### SER and DESER -/

theorem ser_eq_flatMap (S : HState) : ser S = bytes32 (S.toList.flatMap bytesBe32) := by
  have words : S.toList = [S[0], S[1], S[2], S[3], S[4], S[5], S[6], S[7]] :=
    List.ext_getElem (by simp) fun i hi _ => by
      have : i < 8 := by simpa using hi
      interval_cases i <;> simp
  simp [ser, words]

/-- R65, at indices that are plain numbers. -/
theorem getElem_ser (S : HState) {i j : Nat} (hi : i < 8) (hj : j < 4) :
    (ser S)[4 * i + j] = S[i].extractLsb' (24 - 8 * j) 8 := by
  simp only [ser_eq_flatMap, getElem_bytes32]
  rw [getD_flatMap_bytesBe32 _ (by simpa using hi) hj, Vector.getElem_toList]

/-- R66, at an index that is a plain number. -/
theorem getElem_deser (b : Bytes32) {i : Nat} (hi : i < 8) :
    (deser b)[i] = be32 b[4 * i] b[4 * i + 1] b[4 * i + 2] b[4 * i + 3] := by
  simp [deser]

@[simp] theorem deser_ser (S : HState) : deser (ser S) = S := by
  ext1 i hi
  have byte0 : (ser S)[4 * i] = S[i].extractLsb' 24 8 := getElem_ser S hi (j := 0) (by decide)
  have byte1 : (ser S)[4 * i + 1] = S[i].extractLsb' 16 8 := getElem_ser S hi (j := 1) (by decide)
  have byte2 : (ser S)[4 * i + 2] = S[i].extractLsb' 8 8 := getElem_ser S hi (j := 2) (by decide)
  have byte3 : (ser S)[4 * i + 3] = S[i].extractLsb' 0 8 := getElem_ser S hi (j := 3) (by decide)
  rw [getElem_deser _ hi, byte0, byte1, byte2, byte3]
  exact be32_bytes S[i]

@[simp] theorem ser_deser (b : Bytes32) : ser (deser b) = b := by
  ext1 k hk
  obtain ⟨i, j, hi, hj, rfl⟩ : ∃ i j, i < 8 ∧ j < 4 ∧ k = 4 * i + j := ⟨k / 4, k % 4, by omega, by omega, by omega⟩
  rw [getElem_ser _ hi hj, getElem_deser _ hi, extractLsb'_be32 _ _ _ _ hj]
  interval_cases j <;> rfl

/-- Settles O22: `SER` is the bytes of the eight words one after another, and each word takes four places. -/
theorem serializationByteLayout : Obligations.SerializationByteLayout :=
  fun S i j => getElem_ser S i.isLt j.isLt

/-- Settles O23: word `i` of `DESER`, and the two maps inverse because assembling and taking apart a word are. -/
theorem serializationIsBijective : Obligations.SerializationIsBijective :=
  ⟨fun b i => getElem_deser b i.isLt, deser_ser, ser_deser⟩

end Sys2Proof.Machine
end

section
/-! The header check against the opcode map (spec/30_encoding.md R96, R98): both say of a header's four fields the same thing, so a
header is legal for an opcode exactly when it matches that opcode's row; and the statements about headers. -/

namespace Sys2Proof

open Sys2Proof.Machine

/-! ### A header, field by field -/

theorem hdrOp_and (a b : Word) : hdrOp (a &&& b) = hdrOp a &&& hdrOp b := BitVec.extractLsb'_and

theorem hdrRsv_and (a b : Word) : hdrRsv (a &&& b) = hdrRsv a &&& hdrRsv b := BitVec.extractLsb'_and

theorem hdrC_and (a b : Word) : hdrC (a &&& b) = (hdrC a && hdrC b) := BitVec.getLsbD_and

theorem hdrArg_and (a b : Word) : hdrArg (a &&& b) = hdrArg a &&& hdrArg b := BitVec.extractLsb'_and

/-- Two headers are equal exactly when their four fields are. -/
theorem header_ext_iff {a b : Word} :
    a = b ↔ hdrOp a = hdrOp b ∧ hdrRsv a = hdrRsv b ∧ hdrC a = hdrC b ∧ hdrArg a = hdrArg b := by
  constructor
  · rintro rfl
    exact ⟨rfl, rfl, rfl, rfl⟩
  · rintro ⟨hop, hrsv, hc, harg⟩
    rw [← fields_of_header a, hop, hrsv, hc, harg, fields_of_header b]

/-- The upper byte of `arg` is bits 15 to 8 of the header (R98 e). -/
theorem extractLsb'_hdrArg_upper (hdr : Word) : (hdrArg hdr).extractLsb' 8 8 = hdr.extractLsb' 8 8 := by
  apply BitVec.eq_of_getLsbD_eq
  intro i hi
  simp [hdrArg, hi]

/-! ### The row of an opcode -/

/-- The bits of `arg` that the row of an opcode fixes to 0: none where `arg` is a length, the upper byte where it is XPUTB's byte,
otherwise all. -/
def Opcode.argMask (o : Opcode) : BitVec 16 :=
  if o.format = .V then 0 else if o = .xputb then 0xFF00 else 0xFFFF

/-- The row of the opcode map for an opcode, from the opcode's format and case operand. -/
def Opcode.row (o : Opcode) : OpRow where
  mnemonic := (assemble o 0 []).mnemonic
  pattern := mkHeader o.code false 0
  mask := 0xFF#8 ++ 0x7F#7 ++ BitVec.ofBool (!o.hasCase) ++ o.argMask

/-- The opcode map that the spec prints is the list of these rows. -/
theorem opTable_eq_map_row : opTable = Opcode.all.map Opcode.row := rfl

theorem mem_opTable_iff {r : OpRow} : r ∈ opTable ↔ ∃ o : Opcode, o.row = r := by
  simp [opTable_eq_map_row, mem_all]

@[simp] theorem hdrOp_row_mask (o : Opcode) : hdrOp o.row.mask = 0xFF := hdrOp_fields ..

@[simp] theorem hdrRsv_row_mask (o : Opcode) : hdrRsv o.row.mask = 0x7F := hdrRsv_fields ..

@[simp] theorem hdrC_row_mask (o : Opcode) : hdrC o.row.mask = !o.hasCase := by
  rw [Opcode.row, hdrC_fields, BitVec.getLsbD_ofBool]
  simp

@[simp] theorem hdrArg_row_mask (o : Opcode) : hdrArg o.row.mask = o.argMask := hdrArg_fields ..

/-- Where the upper byte of `arg` is 0, so is each bit from 8 up. -/
theorem getLsbD_of_upper_zero {arg : BitVec 16} (h : arg.extractLsb' 8 8 = 0) {i : Nat} (low : 8 ≤ i) (hi : i < 16) :
    arg.getLsbD i = false := by
  have bit : (arg.extractLsb' 8 8).getLsbD (i - 8) = false := by rw [h, BitVec.ofNat_eq_ofNat, BitVec.getLsbD_zero]
  have inUpper : i - 8 < 8 := by omega
  have back : 8 + (i - 8) = i := by omega
  simpa [inUpper, back] using bit

theorem and_upper_eq_zero_iff (arg : BitVec 16) : arg &&& 0xFF00 = 0 ↔ arg.extractLsb' 8 8 = 0 := by
  constructor
  · intro h
    have upper : (arg &&& 0xFF00).extractLsb' 8 8 = arg.extractLsb' 8 8 := by
      rw [BitVec.extractLsb'_and]
      exact BitVec.and_allOnes
    rw [← upper, h]
    rfl
  · intro h
    apply BitVec.eq_of_getLsbD_eq
    intro i hi
    rw [BitVec.getLsbD_and]
    by_cases low : i < 8
    · interval_cases i <;> simp
    · simp [getLsbD_of_upper_zero h (Nat.le_of_not_lt low) hi]

theorem and_argMask_eq_zero_iff (o : Opcode) (arg : BitVec 16) :
    arg &&& o.argMask = 0 ↔
      (arg ≠ 0 → o.format = .V ∨ o = .xputb) ∧ (o = .xputb → arg.extractLsb' 8 8 = 0) := by
  unfold Opcode.argMask
  by_cases hV : o.format = .V
  · have hx : o ≠ .xputb := by
      rintro rfl
      cases hV
    simp [hV, hx]
  · by_cases hx : o = .xputb
    · subst hx
      simpa [hV] using and_upper_eq_zero_iff arg
    · have all : arg &&& 0xFFFF#16 = arg := BitVec.and_allOnes
      simp [hV, hx, all]

/-- A header matches an opcode's row exactly when its fields are those the row asks for. -/
theorem matches_row_iff (hdr : Word) (o : Opcode) :
    hdr &&& o.row.mask = o.row.pattern ↔
      hdrOp hdr = o.code ∧ hdrRsv hdr = 0 ∧ (hdrC hdr = true → o.hasCase = true) ∧ hdrArg hdr &&& o.argMask = 0 := by
  have pattern : o.row.pattern = mkHeader o.code false 0 := rfl
  have hop : hdrOp hdr &&& 0xFF = hdrOp hdr := BitVec.and_allOnes
  have hrsv : hdrRsv hdr &&& 0x7F = hdrRsv hdr := BitVec.and_allOnes
  rw [header_ext_iff, hdrOp_and, hdrRsv_and, hdrC_and, hdrArg_and, hdrOp_row_mask, hdrRsv_row_mask, hop, hrsv, pattern]
  simp

/-! ### The header check -/

theorem hdrOp_of_checkHeader_ok {hdr : Word} {o : Opcode} (h : checkHeader hdr = .ok o) : hdrOp hdr = o.code := by
  unfold checkHeader at h
  split at h
  next => cases h
  next o' hcode =>
    split_ifs at h
    cases h
    exact (code_of_ofCode hcode).symm

/-- The check accepts a header for an opcode exactly when none of (a) to (e) holds (R98). -/
theorem checkHeader_ok_iff (hdr : Word) (o : Opcode) :
    checkHeader hdr = .ok o ↔
      hdrOp hdr = o.code ∧ hdrRsv hdr = 0 ∧ (hdrC hdr = true → o.hasCase = true) ∧ hdrArg hdr &&& o.argMask = 0 := by
  by_cases hop : hdrOp hdr = o.code
  · simp only [checkHeader, hop, ofCode_code, and_argMask_eq_zero_iff, true_and]
    split_ifs <;> grind
  · exact iff_of_false (fun h => hop (hdrOp_of_checkHeader_ok h)) fun h => hop h.1

/-- R96 and R98 agree: a header is legal for an opcode exactly when it matches that opcode's row. -/
theorem checkHeader_ok_iff_matches_row (hdr : Word) (o : Opcode) :
    checkHeader hdr = .ok o ↔ hdr &&& o.row.mask = o.row.pattern := by
  rw [checkHeader_ok_iff, matches_row_iff]

theorem checkHeader_error_iff_not_ok (hdr : Word) :
    (∃ why, checkHeader hdr = .error why) ↔ ∀ o, checkHeader hdr ≠ .ok o := by
  cases checkHeader hdr <;> simp

theorem checkHeader_error_iff_no_row (hdr : Word) :
    (∃ why, checkHeader hdr = .error why) ↔ ∀ r ∈ opTable, hdr &&& r.mask ≠ r.pattern := by
  simp [checkHeader_error_iff_not_ok, checkHeader_ok_iff_matches_row, mem_opTable_iff]

/-- The five conditions of R98, for a header with a known opcode: (a) cannot hold. -/
theorem checkHeader_error_iff_of_op {hdr : Word} {o : Opcode} (hop : hdrOp hdr = o.code) :
    (∃ why, checkHeader hdr = .error why) ↔
      hdrRsv hdr ≠ 0 ∨ (hdrC hdr = true ∧ o.hasCase = false) ∨
      (hdrArg hdr ≠ 0 ∧ o.format ≠ .V ∧ o ≠ .xputb) ∨ (o = .xputb ∧ hdr.extractLsb' 8 8 ≠ 0) := by
  simp only [checkHeader, hop, ofCode_code, extractLsb'_hdrArg_upper]
  split_ifs <;> grind

theorem checkHeader_undefined {hdr : Word} (h : Opcode.ofCode (hdrOp hdr) = none) :
    checkHeader hdr = .error .undefinedOpcode := by
  rw [checkHeader, h]

/-! ### The opcodes' properties, by their codes as the spec lists them -/

/-- A value of `op` is undefined exactly when it is none of the 18 codes (R98 a). -/
theorem ofCode_eq_none_iff (b : Byte) : Opcode.ofCode b = none ↔ b ∉ Opcode.all.map Opcode.code := by
  simp only [Opcode.ofCode, List.find?_eq_none, List.mem_map, beq_iff_eq, not_exists, not_and]

theorem hasCase_eq_false_iff_code (o : Opcode) :
    o.hasCase = false ↔ o.code ≠ 0x41 ∧ o.code ≠ 0x42 ∧ o.code ≠ 0x46 := by
  cases o <;> decide

theorem format_ne_V_iff_code (o : Opcode) : o.format ≠ .V ↔ o.code ≠ 0x12 ∧ o.code ≠ 0x22 ∧ o.code ≠ 0x42 := by
  cases o <;> decide

theorem eq_xputb_iff_code (o : Opcode) : o = .xputb ↔ o.code = 0x41 := by
  cases o <;> decide

/-- The check refuses a header exactly when one of (a) to (e) holds (R98), in the fields and codes of the spec. -/
theorem checkHeader_error_iff_conditions (hdr : Word) :
    (∃ why, checkHeader hdr = .error why) ↔
      hdrOp hdr ∉ Opcode.all.map Opcode.code ∨
      hdrRsv hdr ≠ 0 ∨
      (hdrC hdr = true ∧ hdrOp hdr ≠ 0x41 ∧ hdrOp hdr ≠ 0x42 ∧ hdrOp hdr ≠ 0x46) ∨
      (hdrArg hdr ≠ 0 ∧ hdrOp hdr ≠ 0x12 ∧ hdrOp hdr ≠ 0x22 ∧ hdrOp hdr ≠ 0x42 ∧ hdrOp hdr ≠ 0x41) ∨
      (hdrOp hdr = 0x41 ∧ hdr.extractLsb' 8 8 ≠ 0) := by
  rw [← ofCode_eq_none_iff]
  cases hc : Opcode.ofCode (hdrOp hdr) with
  | none => exact iff_of_true ⟨_, checkHeader_undefined hc⟩ (.inl rfl)
  | some o =>
    have hop : hdrOp hdr = o.code := (code_of_ofCode hc).symm
    rw [checkHeader_error_iff_of_op hop, hop, hasCase_eq_false_iff_code, format_ne_V_iff_code, ne_eq o,
      eq_xputb_iff_code]
    simp [and_assoc]

end Sys2Proof
end

section
/-! Decoding and encoding packets (spec/30_encoding.md R92 to R98): what a decoded packet was made of, operand assembly as the inverse
of a command's header and payload, and the statements about packets. -/

namespace Sys2Proof

open Sys2Proof.Machine

/-! ### What was decoded -/

/-- A stream decodes to a command exactly when it starts with a whole packet of a legal header that assembles to it. -/
theorem decode_packet_iff {bs : List Byte} {i : Instr} {rest : List Byte} :
    decode bs = .packet i rest ↔ ∃ hdr payload o, payload.length = paylen hdr ∧ bs = bytesBe32 hdr ++ payload ++ rest ∧
      checkHeader hdr = .ok o ∧ assemble o hdr payload = i := by
  constructor
  · intro h
    obtain ⟨hdr, payload, rest', rfl, hl⟩ := exists_packet (bs := bs) (by simp [h])
    rw [decode_whole hl] at h
    cases hc : checkHeader hdr with
    | error why => simp [hc] at h
    | ok o =>
      obtain ⟨hi, rfl⟩ : assemble o hdr payload = i ∧ rest' = rest := by simpa [hc] using h
      exact ⟨hdr, payload, o, hl, rfl, hc, hi⟩
  · rintro ⟨hdr, payload, o, hl, rfl, hc, rfl⟩
    rw [decode_whole hl, hc]

/-- A stream decodes to an illegal header exactly when it starts with a whole packet whose header the check refuses. -/
theorem decode_illegal_iff {bs : List Byte} {hdr : Word} {why : Illegal} {rest : List Byte} :
    decode bs = .illegal hdr why rest ↔ ∃ payload, payload.length = paylen hdr ∧ bs = bytesBe32 hdr ++ payload ++ rest ∧
      checkHeader hdr = .error why := by
  constructor
  · intro h
    obtain ⟨hdr', payload, rest', rfl, hl⟩ := exists_packet (bs := bs) (by simp [h])
    rw [decode_whole hl] at h
    cases hc : checkHeader hdr' with
    | error why' =>
      obtain ⟨rfl, rfl, rfl⟩ : hdr' = hdr ∧ why' = why ∧ rest' = rest := by simpa [hc] using h
      exact ⟨payload, hl, rfl, hc⟩
    | ok o => simp [hc] at h
  · rintro ⟨payload, hl, rfl, hc⟩
    rw [decode_whole hl, hc]

/-- Fewer payload bytes than announced are no packet (R95). -/
theorem decode_partial {hdr : Word} {body : List Byte} (h : body.length < paylen hdr) :
    decode (bytesBe32 hdr ++ body) = .incomplete := by
  rw [decode_header_append, decodeBody, if_pos h]

/-! ### Operand assembly and a command's header and payload -/

@[simp] theorem opcode_assemble (o : Opcode) (hdr : Word) (payload : List Byte) :
    (assemble o hdr payload).opcode = o := by
  cases o <;> rfl

@[simp] theorem bitOfCase_caseOfBit (c : Bool) : bitOfCase (caseOfBit c) = c := by
  cases c <;> rfl

@[simp] theorem caseOfBit_bitOfCase (c : Case) : caseOfBit (bitOfCase c) = c := by
  cases c <;> rfl

/-- A command assembled for an opcode has that opcode's mnemonic, whatever its operands are. -/
theorem mnemonic_assemble (o : Opcode) (hdr : Word) (payload : List Byte) :
    (assemble o hdr payload).mnemonic = o.row.mnemonic := by
  cases o <;> rfl

/-- A byte put into the field `arg` is read back from it. -/
theorem extractLsb'_setWidth_byte (byte : Byte) : (byte.setWidth 16).extractLsb' 0 8 = byte := by
  apply BitVec.eq_of_getLsbD_eq
  intro i hi
  have : i < 16 := by omega
  simp [hi, this]

/-- Assembling a command's opcode, header and payload gives the command. -/
theorem assemble_header_payload (i : Instr) : assemble i.opcode i.header i.payload = i := by
  cases i with
  | mnew bytes n =>
    have hb : memRead (bytes.toList ++ bytesBe64 n) 0 32 = bytes.toList := memRead_append_left (by simp)
    have hn : memRead (bytes.toList ++ bytesBe64 n) 32 8 = bytesBe64 n := memRead_append_right (by simp) rfl
    simp only [Instr.opcode, assemble, Instr.payload, hb, hn, bytes32_toList, be64_bytesBe64]
  | xputb byte c => simp [Instr.opcode, assemble, Instr.header, Instr.arg, Instr.caseBit, extractLsb'_setWidth_byte]
  | xputn bytes c => simp [Instr.opcode, assemble, Instr.header, Instr.payload, Instr.caseBit]
  | xputd c => simp [Instr.opcode, assemble, Instr.header, Instr.caseBit]
  | _ => rfl

/-- A field `arg` whose upper byte is 0 is its lower byte, put back. -/
theorem setWidth_extractLsb'_byte {arg : BitVec 16} (h : arg.extractLsb' 8 8 = 0) :
    (arg.extractLsb' 0 8).setWidth 16 = arg := by
  apply BitVec.eq_of_getLsbD_eq
  intro i hi
  by_cases low : i < 8
  · simp [hi, low]
  · rw [getLsbD_of_upper_zero h (Nat.le_of_not_lt low) hi]
    simp [low]

theorem bytesBe64_be64_of_length {l : List Byte} (h : l.length = 8) : bytesBe64 (be64 l) = l := by
  match l, h with
  | [b0, b1, b2, b3, b4, b5, b6, b7], _ => exact bytesBe64_be64 b0 b1 b2 b3 b4 b5 b6 b7

/-- MNEW's operands, cut from 40 bytes, laid back to back are the 40 bytes. -/
theorem mnew_operands_append {payload : List Byte} (h : payload.length = 40) :
    (bytes32 (memRead payload 0 32)).toList ++ bytesBe64 (be64 (memRead payload 32 8)) = payload := by
  have hb : (memRead payload 0 32).length = 32 := length_memRead _ _ _ (by omega)
  have hn : (memRead payload 32 8).length = 8 := length_memRead _ _ _ (by omega)
  have all : (payload.drop 32).take 8 = payload.drop 32 := List.take_of_length_le (by rw [List.length_drop]; omega)
  rw [toList_bytes32 _ hb, bytesBe64_be64_of_length hn]
  simp [memRead, all]

theorem caseBit_assemble {o : Opcode} {hdr : Word} (h : hdrC hdr = true → o.hasCase = true) (payload : List Byte) :
    (assemble o hdr payload).caseBit = hdrC hdr := by
  cases o with
  | xputb | xputn | xputd => exact bitOfCase_caseOfBit (hdrC hdr)
  | _ => exact (Bool.eq_false_iff.mpr fun hc => absurd (h hc) (by decide)).symm

theorem arg_assemble {o : Opcode} {hdr : Word} {payload : List Byte} (hop : hdrOp hdr = o.code)
    (harg : hdrArg hdr &&& o.argMask = 0) (hl : payload.length = paylen hdr) :
    (assemble o hdr payload).arg = hdrArg hdr := by
  obtain ⟨hzero, hbyte⟩ := (and_argMask_eq_zero_iff o (hdrArg hdr)).mp harg
  have hlen : o.format = .V → BitVec.ofNat 16 payload.length = hdrArg hdr := by
    intro hV
    rw [hl, paylen_of_op hop, hV, BitVec.ofNat_toNat, BitVec.setWidth_eq]
  cases o with
  | einput | mtag | xputn => exact hlen rfl
  | xputb => exact setWidth_extractLsb'_byte (hbyte rfl)
  | _ => exact (Decidable.byContradiction fun h => absurd (hzero h) (by decide)).symm

/-- The command assembled from a legal header has that header. -/
theorem header_assemble {o : Opcode} {hdr : Word} {payload : List Byte} (hc : checkHeader hdr = .ok o)
    (hl : payload.length = paylen hdr) : (assemble o hdr payload).header = hdr := by
  obtain ⟨hop, hrsv, hcase, harg⟩ := (checkHeader_ok_iff hdr o).mp hc
  simp [header_ext_iff, Instr.header, caseBit_assemble hcase, arg_assemble hop harg hl, hop, hrsv]

/-- The command assembled from a legal header and its payload has that payload. -/
theorem payload_assemble {o : Opcode} {hdr : Word} {payload : List Byte} (hop : hdrOp hdr = o.code)
    (hl : payload.length = paylen hdr) : (assemble o hdr payload).payload = payload := by
  rw [paylen_of_op hop] at hl
  cases o with
  | einput | mtag | xputn => rfl
  | mnew => exact mnew_operands_append hl
  | _ => exact (List.eq_nil_of_length_eq_zero hl).symm

/-! ### Encoding -/

/-- For every command: its header is legal, selects its row, and announces its payload (spec/30_encoding.md R92, R95, R96). -/
theorem header_names_command : ∀ i : Instr, Laws.HeaderNamesCommand.Statement i
  | .sstat => Laws.HeaderNamesCommand.sstat
  | .enew => Laws.HeaderNamesCommand.enew
  | .efromms => Laws.HeaderNamesCommand.efromms
  | .einput bytes => Laws.HeaderNamesCommand.einput bytes
  | .ecanx => Laws.HeaderNamesCommand.ecanx
  | .emid => Laws.HeaderNamesCommand.emid
  | .efinal => Laws.HeaderNamesCommand.efinal
  | .mnew bytes n => Laws.HeaderNamesCommand.mnew bytes n
  | .mparts => Laws.HeaderNamesCommand.mparts
  | .mtag tag => Laws.HeaderNamesCommand.mtag tag
  | .dread => Laws.HeaderNamesCommand.dread
  | .xnew => Laws.HeaderNamesCommand.xnew
  | .xputb byte c => Laws.HeaderNamesCommand.xputb byte c
  | .xputn bytes c => Laws.HeaderNamesCommand.xputn bytes c
  | .xfull => Laws.HeaderNamesCommand.xfull
  | .xstr => Laws.HeaderNamesCommand.xstr
  | .xclear => Laws.HeaderNamesCommand.xclear
  | .xputd c => Laws.HeaderNamesCommand.xputd c

/-- R97, from commands to packets: decoding the packet of a well-formed command returns the command. -/
theorem decode_encode {i : Instr} (hw : i.WellFormed) (rest : List Byte) :
    decode (encode i ++ rest) = .packet i rest := by
  obtain ⟨hc, hl, _⟩ := header_names_command i hw
  exact decode_packet_iff.mpr ⟨i.header, i.payload, i.opcode, hl, rfl, hc, assemble_header_payload i⟩

/-- R97, from packets to commands: what decodes is well-formed, and its one packet is what was decoded. -/
theorem encode_of_decode {bs : List Byte} {i : Instr} {rest : List Byte} (h : decode bs = .packet i rest) :
    i.WellFormed ∧ bs = encode i ++ rest := by
  obtain ⟨hdr, payload, o, hl, rfl, hc, rfl⟩ := decode_packet_iff.mp h
  refine ⟨assemble_wellFormed o hdr (hl ▸ paylen_le hdr), ?_⟩
  rw [encode, header_assemble hc hl, payload_assemble (hdrOp_of_checkHeader_ok hc) hl]

/-- The field `arg` of a well-formed command of format `V` is its payload length (R94). -/
theorem arg_toNat_of_format_V {i : Instr} (hw : i.WellFormed) (hV : i.opcode.format = .V) :
    i.arg.toNat = i.payload.length := by
  obtain ⟨_, hl, _⟩ := header_names_command i hw
  rw [hl, paylen_of_op (hdr := i.header) (hdrOp_mkHeader ..), hV, Instr.header, hdrArg_mkHeader]

/-- The field `arg` is 0 where it is neither a length nor XPUTB's byte (R94). -/
theorem arg_eq_zero {i : Instr} (hV : i.opcode.format ≠ .V) (hx : i.opcode ≠ .xputb) : i.arg = 0 := by
  cases i with
  | einput | mtag | xputn => exact absurd rfl hV
  | xputb => exact absurd rfl hx
  | _ => rfl

/-- Settles O1: decoding and encoding are inverse because assembling operands and taking a command's header and payload are. -/
theorem packetsAndCommandsCorrespond : Obligations.PacketsAndCommandsCorrespond := by
  unfold Obligations.PacketsAndCommandsCorrespond
  refine ⟨fun bs i rest => ⟨encode_of_decode, ?_⟩, fun i hw => ?_, fun bs hdr why rest h => ?_⟩
  · rintro ⟨hw, rfl⟩
    exact decode_encode hw rest
  · refine ⟨BitVec.ofBool i.caseBit, i.arg, rfl, arg_toNat_of_format_V hw, arg_eq_zero, ?_⟩
    rintro byte case rfl
    exact BitVec.toNat_setWidth_of_le (by decide)
  · obtain ⟨payload, _, _, hc⟩ := decode_illegal_iff.mp h
    exact (checkHeader_error_iff_no_row hdr).mp ⟨why, hc⟩

/-- Settles O3: the rows are one for each opcode, and a header that matches an opcode's row is legal for that opcode alone. -/
theorem headerSelectsItsRow : Obligations.HeaderSelectsItsRow := by
  unfold Obligations.HeaderSelectsItsRow
  refine ⟨rfl, fun hdr r₁ r₂ h₁ h₂ hm₁ hm₂ => ?_, fun hdr r payload rest hr hm hl => ?_⟩
  · obtain ⟨o₁, rfl⟩ := mem_opTable_iff.mp h₁
    obtain ⟨o₂, rfl⟩ := mem_opTable_iff.mp h₂
    have hc₁ := (checkHeader_ok_iff_matches_row hdr o₁).mpr hm₁
    have hc₂ := (checkHeader_ok_iff_matches_row hdr o₂).mpr hm₂
    rw [hc₁] at hc₂
    rw [Except.ok.inj hc₂]
  · obtain ⟨o, rfl⟩ := mem_opTable_iff.mp hr
    have hc := (checkHeader_ok_iff_matches_row hdr o).mpr hm
    refine ⟨assemble o hdr payload, ?_, mnemonic_assemble o hdr payload⟩
    exact decode_packet_iff.mpr ⟨hdr, payload, o, hl, rfl, hc, rfl⟩

/-! ### Framing -/

/-- The announced length in a header's fields (R95). -/
theorem paylen_fields (op : Byte) (rsv : BitVec 7) (c : BitVec 1) (arg : BitVec 16) :
    paylen (op ++ rsv ++ c ++ arg) =
      if op ∈ ([0x12, 0x22, 0x42] : List Byte) then arg.toNat else if op = 0x20 then 40 else 0 := by
  simp [paylen]

/-- While the stream holds no whole packet the block waits (R95). -/
theorem step_incomplete {s : State} (h : decode s.cmd = .incomplete) : step s = .fault .awaitingPacket := by
  rw [step, fetch_incomplete h]

/-- Settles O4: `paylen` reads `op` and `arg` alone, and decoding cuts the stream at it before the header is judged. -/
theorem framingFollowsPaylen : Obligations.FramingFollowsPaylen := by
  unfold Obligations.FramingFollowsPaylen
  refine ⟨paylen_fields, fun hdr payload rest hl => ⟨fun o hc => ?_, fun why hc => ?_⟩, fun hdr body => decode_partial,
    fun bs => decode_short, fun s t hd => ?_⟩
  · exact decode_packet_iff.mpr ⟨hdr, payload, o, hl, rfl, hc, rfl⟩
  · exact decode_illegal_iff.mpr ⟨payload, hl, rfl, hc⟩
  · rw [step_incomplete hd]
    nofun

/-! ### Illegal headers and steps -/

/-- A whole packet with an illegal header faults on a live block, its payload consumed (R98, spec/60_exceptions.md R253). -/
theorem step_illegal_live {s : State} {hdr : Word} {why : Illegal} {rest : List Byte} (hs : s.halt = false)
    (hd : decode s.cmd = .illegal hdr why rest) :
    step s = .next (State.faulted { s with cmd := rest } 1 (hdr.setWidth 64)) := by
  rw [step, fetch_illegal hd]
  exact (unlessHalted_live (s := { s with cmd := rest }) hs _).trans (raiseFault_eq ..)

/-- Settles O2: the check refuses what no row matches, it refuses by the five conditions, and what it refuses faults. -/
theorem illegalHeaderIffNoRowMatches : Obligations.IllegalHeaderIffNoRowMatches := by
  unfold Obligations.IllegalHeaderIffNoRowMatches
  refine fun hdr => ⟨checkHeader_error_iff_no_row hdr, checkHeader_error_iff_conditions hdr, ?_⟩
  intro why s payload rest hc hs hcmd hl
  exact step_illegal_live hs (decode_illegal_iff.mpr ⟨payload, hl, hcmd, hc⟩)

end Sys2Proof
end

section
/-! One response for each packet (spec/30_encoding.md R91): a step consumes one whole packet and answers it once. -/

namespace Sys2Proof.Machine

/-- Executing a command leaves the command stream as it is: its packet was consumed before. -/
theorem exec_cmd {i : Instr} {s t : State} (h : exec i s = .next t) : t.cmd = s.cmd := by
  cases exec_next h with
  | refused => rfl
  | faulted => rfl
  | boundary => rfl
  | completed _ u hu payload => exact hu.cmd

/-- A step consumes one whole packet: a header and a payload of the announced length (R95). -/
theorem step_consumes_packet {s t : State} (h : step s = .next t) :
    ∃ (hdr : Word) (payload : List Byte), payload.length = paylen hdr ∧ s.cmd = bytesBe32 hdr ++ payload ++ t.cmd := by
  rcases step_next h with ⟨i, rest, hd, hx⟩ | ⟨hdr, why, rest, hd, hx⟩
  · obtain ⟨hdr, payload, o, hl, hcmd, _, _⟩ := decode_packet_iff.mp hd
    exact ⟨hdr, payload, hl, by rw [hcmd, exec_cmd hx]⟩
  · obtain ⟨payload, hl, hcmd, _⟩ := decode_illegal_iff.mp hd
    rcases hx with ⟨_, rfl⟩ | ⟨_, rfl⟩ <;> exact ⟨hdr, payload, hl, hcmd⟩

/-- A step adds one response: the command's, or the refusal or the fault of an illegal header (R91). -/
theorem step_rsp {s t : State} (h : step s = .next t) : ∃ r, t.rsp = s.rsp ++ [r] := by
  rcases step_next h with ⟨i, rest, _, hx⟩ | ⟨hdr, why, rest, _, ⟨_, rfl⟩ | ⟨_, rfl⟩⟩
  · obtain ⟨r, hr⟩ := exec_rsp hx
    exact ⟨r, hr⟩
  · exact ⟨_, rfl⟩
  · exact ⟨_, rfl⟩

/-- Settles O10: every way a step can go on answers once and leaves the stream after the packet. -/
theorem oneResponsePerPacket : Obligations.OneResponsePerPacket :=
  fun _ _ h => ⟨step_rsp h, step_consumes_packet h⟩

end Sys2Proof.Machine
end

section
/-! The pseudo-commands (spec/30_encoding.md R109): how INPUT is cut into packets, that no expansion holds an SSTAT, what a halted block
answers to a list of commands, and the statement about expansions. -/

namespace Sys2Proof.Machine

/-! ### INPUT -/

/-- Bytes that fit one packet are one EINPUT. -/
theorem inputCommands_short {s : List Byte} (h : s.length ≤ maxPayload) (fuel : Nat) :
    inputCommands fuel s = [.einput s] := by
  cases fuel with
  | zero => rfl
  | succ fuel => rw [inputCommands, if_pos h]

/-- Bytes that do not fit are one full EINPUT and then the rest. -/
theorem inputCommands_long {s : List Byte} (h : maxPayload < s.length) (fuel : Nat) :
    inputCommands (fuel + 1) s = .einput (s.take maxPayload) :: inputCommands fuel (s.drop maxPayload) := by
  rw [inputCommands, if_neg (by omega)]

/-- Fuel for every byte is enough: how much more of it there is changes nothing. -/
theorem inputCommands_fuel {s : List Byte} {fuel fuel' : Nat} (h : s.length ≤ fuel) (h' : s.length ≤ fuel') :
    inputCommands fuel s = inputCommands fuel' s := by
  induction fuel generalizing s fuel' with
  | zero =>
    have hs : s.length ≤ maxPayload := by omega
    rw [inputCommands_short hs, inputCommands_short hs]
  | succ fuel ih =>
    by_cases hs : s.length ≤ maxPayload
    · rw [inputCommands_short hs, inputCommands_short hs]
    · obtain ⟨k, rfl⟩ : ∃ k, fuel' = k + 1 := ⟨fuel' - 1, by omega⟩
      have shorter : (s.drop maxPayload).length < s.length := by rw [List.length_drop, maxPayload]; omega
      rw [inputCommands_long (by omega), inputCommands_long (by omega)]
      exact congrArg _ (ih (by omega) (by omega))

/-- INPUT of bytes that do not fit one packet (R109). -/
theorem expandPseudo_input_long {s : List Byte} (h : maxPayload < s.length) :
    expandPseudo (.input s) = .einput (s.take maxPayload) :: expandPseudo (.input (s.drop maxPayload)) := by
  obtain ⟨n, hn⟩ : ∃ n, s.length = n + 1 := ⟨s.length - 1, by omega⟩
  have shorter : (s.drop maxPayload).length ≤ n := by rw [List.length_drop, maxPayload]; omega
  rw [expandPseudo, hn, inputCommands_long h, inputCommands_fuel shorter (Nat.le_refl _), expandPseudo]

/-- With enough fuel the packets carry the bytes in order, each no more than fit. -/
theorem inputCommands_chunks {s : List Byte} {fuel : Nat} (h : s.length ≤ fuel) :
    ∃ chunks : List (List Byte), inputCommands fuel s = chunks.map .einput ∧ chunks.flatten = s ∧
      ∀ c ∈ chunks, c.length ≤ maxPayload := by
  induction fuel generalizing s with
  | zero => exact ⟨[s], rfl, by simp, by simp; omega⟩
  | succ fuel ih =>
    by_cases hs : s.length ≤ maxPayload
    · exact ⟨[s], inputCommands_short hs _, by simp, by simpa using hs⟩
    · obtain ⟨chunks, he, hf, hl⟩ := ih (s := s.drop maxPayload) (by simp [maxPayload]; omega)
      refine ⟨s.take maxPayload :: chunks, ?_, ?_, ?_⟩
      · rw [inputCommands_long (by omega), he, List.map_cons]
      · rw [List.flatten_cons, hf, List.take_append_drop]
      · simpa using hl

theorem sstat_not_mem_inputCommands (fuel : Nat) (s : List Byte) : .sstat ∉ inputCommands fuel s := by
  induction fuel generalizing s with
  | zero => simp [inputCommands]
  | succ fuel ih =>
    rw [inputCommands]
    split
    · simp
    · simp [ih]

theorem sstat_not_mem_expandPseudo (p : Pseudo) : .sstat ∉ expandPseudo p := by
  cases p <;> simp [expandPseudo, sstat_not_mem_inputCommands]

/-! ### A halted block -/

/-- A halted block answers HALTED to each command of a list without SSTAT, and nothing else changes (spec/60_exceptions.md R260). -/
theorem execAll_halted {is : List Instr} (hi : .sstat ∉ is) {s : State} (h : s.halt = true) :
    execAll is s = .next { s with rsp := s.rsp ++ List.replicate is.length ⟨.halted, []⟩ } := by
  induction is generalizing s with
  | nil => simp [execAll]
  | cons i is ih =>
    obtain ⟨hne, hrest⟩ : i ≠ .sstat ∧ .sstat ∉ is := by simpa [eq_comm] using hi
    rw [execAll_cons (exec_halted h hne), ih hrest (by simpa using h)]
    simp [State.refusedHalted, List.replicate_succ]

/-- Settles O45: INPUT is cut at full packets, and no expansion holds the one command a halted block executes. -/
theorem pseudoCommandsExpand : Obligations.PseudoCommandsExpand := by
  unfold Obligations.PseudoCommandsExpand
  refine ⟨fun s => ⟨fun h => inputCommands_short h _, expandPseudo_input_long, inputCommands_chunks (Nat.le_refl _)⟩,
    fun _ => rfl, fun _ _ => rfl, fun _ _ _ => rfl, fun _ => rfl, fun _ _ => rfl, fun p s => ?_, ?_⟩
  · obtain ⟨t, ht⟩ := execAll_next (expandPseudo p) s
    obtain ⟨rs, hrs, hl⟩ := execAll_rsp ht
    exact ⟨t, rs, ht, hrs, hl⟩
  · intro p pre post s u hp hu hh
    have noSstat : .sstat ∉ post := fun hm => sstat_not_mem_expandPseudo p (by simp [hp, hm])
    rw [hp, execAll_append hu, execAll_halted noSstat hh]

end Sys2Proof.Machine
end

section
/-! The functions of the Compression Core bit by bit (spec/40_compress.md R131 to R136), and the statements about them. -/

namespace Sys2Proof.Machine

/-! ### Choice and majority -/

/-- The word of all ones, as R131 and R132 write it. -/
theorem ones_and (w : Word) : 0xffffffff &&& w = w := BitVec.allOnes_and

/-- R131: a bit of choice is taken from `y` or from `z`, as the bit of `x` says. -/
theorem getLsbD_ch (x y z : Word) (i : Nat) :
    (ch x y z).getLsbD i = if x.getLsbD i then y.getLsbD i else z.getLsbD i := by
  by_cases hi : i < 32
  · simp only [ch, BitVec.getLsbD_xor, BitVec.getLsbD_and, BitVec.getLsbD_not, hi]
    cases x.getLsbD i <;> simp
  · have high (w : Word) : w.getLsbD i = false := BitVec.getLsbD_of_ge w i (by omega)
    simp [high]

/-- The three-term xor of R132 on single bits. -/
theorem majBit_eq_atLeastTwo : ∀ p q r : Bool,
    (((p && q) ^^ (p && r)) ^^ (q && r)) = decide (2 ≤ p.toNat + q.toNat + r.toNat) := by decide

/-- R132: a bit of majority is the value of at least two bits. -/
theorem getLsbD_maj (x y z : Word) (i : Nat) :
    (maj x y z).getLsbD i = decide (2 ≤ (x.getLsbD i).toNat + (y.getLsbD i).toNat + (z.getLsbD i).toNat) := by
  simp only [maj, BitVec.getLsbD_xor, BitVec.getLsbD_and, majBit_eq_atLeastTwo]

theorem ch_zero (y z : Word) : ch 0 y z = z := by
  have allBits : ~~~(0 : Word) = 0xffffffff := rfl
  rw [ch, allBits, ones_and]
  simp

theorem ch_ones (y z : Word) : ch 0xffffffff y z = y := by
  have noBit : ~~~(0xffffffff : Word) = 0 := rfl
  rw [ch, ones_and, noBit]
  simp

theorem ch_same (x y : Word) : ch x y y = y := BitVec.eq_of_getLsbD_eq fun i _ => by rw [getLsbD_ch, ite_self]

theorem maj_same (x z : Word) : maj x x z = x := by simp [maj]

theorem maj_zero (y z : Word) : maj 0 y z = y &&& z := by simp [maj]

/-- Where one operand has every bit, one more bit makes two. -/
theorem maj_ones (y z : Word) : maj 0xffffffff y z = y ||| z := by
  apply BitVec.eq_of_getLsbD_eq
  intro i hi
  simp only [maj, ones_and, BitVec.getLsbD_xor, BitVec.getLsbD_and, BitVec.getLsbD_or]
  cases y.getLsbD i <;> simp

theorem maj_comm_left (x y z : Word) : maj x y z = maj y x z := by
  rw [maj, maj, BitVec.and_comm y x, BitVec.xor_assoc, BitVec.xor_assoc, BitVec.xor_comm (x &&& z)]

theorem maj_comm_right (x y z : Word) : maj x y z = maj x z y := by
  rw [maj, maj, BitVec.and_comm z y, BitVec.xor_comm (x &&& y)]

/-- Settles O24: a bit of Ch is chosen by the bit of `x`, a bit of Maj is the value of at least two. -/
theorem choiceAndMajorityBitwise : Obligations.ChoiceAndMajorityBitwise := by
  unfold Obligations.ChoiceAndMajorityBitwise
  exact ⟨fun x y z => ⟨rfl, getLsbD_ch x y z, ch_zero y z, ch_ones y z, ch_same x y⟩, by decide,
    fun x y z => ⟨rfl, getLsbD_maj x y z, maj_same x z, maj_zero y z, maj_ones y z, maj_comm_left x y z, maj_comm_right x y z⟩,
    by decide⟩

/-! ### Rotation, shift and the sigma functions -/

theorem rotr_eq_rotateRight {n : Nat} (hn : n < 32) (x : Word) : rotr n x = x.rotateRight n := by
  rw [BitVec.rotateRight_def, Nat.mod_eq_of_lt hn, rotr]

/-- R11: bit `i` of a rotation by `n` is bit `(i + n) mod 32`. -/
theorem getLsbD_rotr {n i : Nat} (hn : n < 32) (hi : i < 32) (x : Word) :
    (rotr n x).getLsbD i = x.getLsbD ((i + n) % 32) := by
  rw [rotr_eq_rotateRight hn, BitVec.getLsbD_rotateRight, Nat.mod_eq_of_lt hn]
  by_cases inside : i < 32 - n
  · rw [Nat.mod_eq_of_lt (by omega)]
    simp [inside, Nat.add_comm n i]
  · have wraps : (i + n) % 32 = i - (32 - n) := by omega
    simp [inside, hi, wraps]

/-- R11: bit `i` of a shift by `n` is bit `i + n` where there is one. -/
theorem getLsbD_shr (n i : Nat) (x : Word) :
    (shr n x).getLsbD i = (decide (i + n < 32) && x.getLsbD (i + n)) := by
  rw [shr, BitVec.getLsbD_ushiftRight, Nat.add_comm n i]
  by_cases inside : i + n < 32
  · simp [inside]
  · simp [inside, BitVec.getLsbD_of_ge x (i + n) (by omega)]

/-- Settles O25: xor, rotation and shift act bit by bit, and each function is the xor of three of them. -/
theorem sigmaFunctionsBitwise : Obligations.SigmaFunctionsBitwise := by
  unfold Obligations.SigmaFunctionsBitwise
  refine ⟨fun x i hi => ⟨?_, ?_, ?_, ?_⟩, by decide, by decide, by decide, by decide⟩
  · simp only [bigSigma0, BitVec.getLsbD_xor, getLsbD_rotr, hi, Nat.reduceLT]
  · simp only [bigSigma1, BitVec.getLsbD_xor, getLsbD_rotr, hi, Nat.reduceLT]
  · simp only [smallSigma0, BitVec.getLsbD_xor, getLsbD_rotr, getLsbD_shr, hi, Nat.reduceLT]
  · simp only [smallSigma1, BitVec.getLsbD_xor, getLsbD_rotr, getLsbD_shr, hi, Nat.reduceLT]

end Sys2Proof.Machine
end

section
/-! The message schedule (spec/40_compress.md R137): what extending it leaves in place and what it puts before, and the statement
about the schedule. -/

namespace Sys2Proof.Machine

/-! ### Extending, newest word first -/

theorem length_extendSchedule (n : Nat) (ws : List Word) : (extendSchedule n ws).length = n + ws.length := by
  induction n generalizing ws with
  | zero => simp [extendSchedule]
  | succ n ih => simp [extendSchedule, ih]; omega

/-- The new words stand before the earlier ones, which stay. -/
theorem drop_extendSchedule (n : Nat) (ws : List Word) : (extendSchedule n ws).drop n = ws := by
  induction n generalizing ws with
  | zero => rfl
  | succ n ih => rw [extendSchedule, ← List.drop_drop, ih, List.drop_one, List.tail_cons]

theorem getD_extendSchedule_add (n : Nat) (ws : List Word) (i : Nat) :
    (extendSchedule n ws).getD (n + i) 0 = ws.getD i 0 := by
  conv_rhs => rw [← drop_extendSchedule n ws]
  simp [List.getD_eq_getElem?_getD]

/-- Each new word is the recurrence's of the words after it in the list, which are the earlier ones. -/
theorem getD_extendSchedule {n k : Nat} (hk : k < n) (ws : List Word) :
    (extendSchedule n ws).getD k 0 = nextWord ((extendSchedule n ws).drop (k + 1)) := by
  induction n generalizing ws with
  | zero => omega
  | succ n ih =>
    rw [extendSchedule]
    obtain hlt | rfl : k < n ∨ k = n := by omega
    · exact ih hlt _
    · have first := getD_extendSchedule_add k (nextWord ws :: ws) 0
      rw [← List.drop_drop, drop_extendSchedule]
      simpa using first

/-! ### The schedule -/

@[simp] theorem length_blockWords (B : Block) : (blockWords B).length = 16 := by simp [blockWords]

@[simp] theorem length_schedule (B : Block) : (schedule B).length = 64 := by
  simp [schedule, length_extendSchedule]

/-- The schedule reads the extended list from its end. -/
theorem getD_schedule (B : Block) {t : Nat} (ht : t < 64) :
    (schedule B).getD t 0 = (extendSchedule 48 (blockWords B).reverse).getD (63 - t) 0 := by
  have words : (extendSchedule 48 (blockWords B).reverse).length = 64 := by simp [length_extendSchedule]
  rw [schedule, List.getD_reverse _ (by omega), words]

/-- R137, the first sixteen words: they stand past the 48 new ones, the block's first word last. -/
theorem getD_schedule_block (B : Block) (t : Fin 16) : (schedule B).getD t.val 0 = blockWord B t := by
  have fromEnd : 63 - t.val = 48 + (15 - t.val) := by omega
  have fromStart : 16 - 1 - (15 - t.val) = t.val := by omega
  have inBlock : 15 - t.val < (blockWords B).length := by rw [length_blockWords]; omega
  rw [getD_schedule B (by omega), fromEnd, getD_extendSchedule_add, List.getD_reverse _ inBlock, length_blockWords, fromStart]
  simp [blockWords]

/-- R137, the words from 16 on: what stands `i + 1` places after a word in the extended list is the word `i + 1` before it. -/
theorem getD_schedule_recurrence (B : Block) {t : Nat} (low : 16 ≤ t) (ht : t < 64) :
    (schedule B).getD t 0 = smallSigma1 ((schedule B).getD (t - 2) 0) + (schedule B).getD (t - 7) 0 +
      smallSigma0 ((schedule B).getD (t - 15) 0) + (schedule B).getD (t - 16) 0 := by
  have back {i : Nat} (hi : i < 16) : ((extendSchedule 48 (blockWords B).reverse).drop (63 - t + 1)).getD i 0 =
      (schedule B).getD (t - (i + 1)) 0 := by
    have place : 63 - t + 1 + i = 63 - (t - (i + 1)) := by omega
    rw [getD_schedule B (by omega), ← place]
    simp [List.getD_eq_getElem?_getD]
  rw [getD_schedule B ht, getD_extendSchedule (by omega), nextWord]
  rw [back (by decide), back (by decide), back (by decide), back (by decide)]

/-- The sixteen words of the all-zero block are zero, and the recurrence makes zeros of zeros. -/
theorem getD_schedule_zeroBlock {t : Nat} (ht : t < 64) : (schedule (Vector.replicate 64 0)).getD t 0 = 0 := by
  induction t using Nat.strong_induction_on with
  | _ t ih =>
    by_cases low : t < 16
    · rw [getD_schedule_block _ ⟨t, low⟩, blockWord]
      simp only [Vector.getElem_replicate]
      rfl
    · rw [getD_schedule_recurrence _ (by omega) ht, ih _ (by omega) (by omega), ih _ (by omega) (by omega),
        ih _ (by omega) (by omega), ih _ (by omega) (by omega)]
      decide

/-- Settles O26: the words of the schedule, at indices counted from the other end of the list that is extended. -/
theorem scheduleFollowsRecurrence : Obligations.ScheduleFollowsRecurrence := by
  unfold Obligations.ScheduleFollowsRecurrence
  refine ⟨fun B => ⟨length_schedule B, getD_schedule_block B, fun t low ht => getD_schedule_recurrence B low ht⟩, fun w hw => ?_⟩
  obtain ⟨t, ht, rfl⟩ := List.getElem_of_mem hw
  rw [← List.getD_eq_getElem _ 0 ht]
  exact getD_schedule_zeroBlock (by simpa using ht)

end Sys2Proof.Machine
end

section
/-! The rounds of COMPRESS one after another (spec/40_compress.md R138 to R140), and the statement about COMPRESS. -/

namespace Sys2Proof.Machine

/-- The working variables at the start of round `t`: the fold of `compressRounds` over the first `t` rounds (R138, R139). -/
def workingAt (S : HState) (B : Block) (t : Nat) : Working :=
  ((kRom.zip (schedule B)).take t).foldl (fun v kw => compressRound v kw.1 kw.2) (Working.ofState S)

@[simp] theorem length_kRom : kRom.length = 64 := rfl

theorem workingAt_zero (S : HState) (B : Block) : workingAt S B 0 = Working.ofState S := rfl

/-- R139: round `t` takes `K[t]` and `W[t]`. -/
theorem workingAt_succ (S : HState) (B : Block) {t : Nat} (ht : t < 64) :
    workingAt S B (t + 1) = compressRound (workingAt S B t) (kRom.getD t 0) ((schedule B).getD t 0) := by
  have inRange : t < (kRom.zip (schedule B)).length := by simpa using ht
  rw [workingAt, List.take_succ_eq_append_getElem inRange, List.foldl_append, List.getElem_zip,
    ← List.getD_eq_getElem _ 0, ← List.getD_eq_getElem _ 0]
  rfl

/-- After round 63 the variables are those `compress` adds into the state. -/
theorem workingAt_sixtyFour (S : HState) (B : Block) :
    workingAt S B 64 = compressRounds (Working.ofState S) (schedule B) := by
  rw [workingAt, List.take_of_length_le (by simp), compressRounds]

/-- R140: the word-wise sum of the state and the variables after round 63. -/
theorem compress_eq_add_workingAt (S : HState) (B : Block) :
    compress S B = #v[S[0] + (workingAt S B 64).a, S[1] + (workingAt S B 64).b, S[2] + (workingAt S B 64).c,
      S[3] + (workingAt S B 64).d, S[4] + (workingAt S B 64).e, S[5] + (workingAt S B 64).f,
      S[6] + (workingAt S B 64).g, S[7] + (workingAt S B 64).h] := by
  rw [workingAt_sixtyFour, compress]

/-- Settles O27: the sequence is the working variables at the start of each round; the examples are evaluated. -/
theorem compressRunsSixtyFourRounds : Obligations.CompressRunsSixtyFourRounds := by
  unfold Obligations.CompressRunsSixtyFourRounds
  refine ⟨fun S B => ⟨workingAt S B, workingAt_zero S B, fun t ht => ?_, compress_eq_add_workingAt S B⟩,
    by decide, by decide +kernel, by decide +kernel, by decide +kernel, by decide +kernel⟩
  have round := workingAt_succ S B ht
  exact ⟨round, round⟩

end Sys2Proof.Machine
end

section
/-! The bytes of a command's packet (spec/30_encoding.md R92, R94, R97). -/

namespace Sys2Proof

open Sys2Proof.Machine

/-- `arg[7:0]` is `hdr[7:0]`. -/
theorem extractLsb'_hdrArg_lower (hdr : Word) : (hdrArg hdr).extractLsb' 0 8 = hdr.extractLsb' 0 8 := by
  rw [hdrArg, BitVec.extractLsb'_extractLsb'_of_le (by decide)]

/-- R92: the four bytes of a header, its fields in order. -/
theorem bytesBe32_mkHeader (op : Byte) (c : Bool) (arg : BitVec 16) :
    bytesBe32 (mkHeader op c arg) = [op, if c then 0x01 else 0x00] ++ bytesBe16 arg := by
  have first : (mkHeader op c arg).extractLsb' 24 8 = op := hdrOp_mkHeader op c arg
  have second : (mkHeader op c arg).extractLsb' 16 8 = 0#7 ++ BitVec.ofBool c := by
    apply BitVec.eq_of_getLsbD_eq
    intro i hi
    rw [BitVec.getLsbD_extractLsb', mkHeader, getLsbD_fields, BitVec.getLsbD_append]
    by_cases h : i < 1
    · simp [h, hi, show 16 + i < 17 by omega]
    · simp [h, hi, show 16 + i < 24 by omega, show ¬ 16 + i < 17 by omega]
  have third : (mkHeader op c arg).extractLsb' 8 8 = arg.extractLsb' 8 8 := by
    rw [← extractLsb'_hdrArg_upper, hdrArg_mkHeader]
  have fourth : (mkHeader op c arg).extractLsb' 0 8 = arg.extractLsb' 0 8 := by
    rw [← extractLsb'_hdrArg_lower, hdrArg_mkHeader]
  have caseByte : 0#7 ++ BitVec.ofBool c = if c then 0x01 else 0x00 := by cases c <;> decide
  rw [bytesBe32, first, second, third, fourth, caseByte]
  rfl

/-- R97: the packet of a command, byte by byte. -/
theorem encode_eq_bytes (i : Instr) :
    encode i = [i.opcode.code, if i.caseBit then 0x01 else 0x00] ++ bytesBe16 i.arg ++ i.payload := by
  rw [encode, Instr.header, bytesBe32_mkHeader]

/-- R93: the packet of EINPUT carries the bytes after their length. -/
theorem encode_einput (bytes : List Byte) :
    encode (.einput bytes) = [0x12, 0x00] ++ bytesBe16 (BitVec.ofNat 16 bytes.length) ++ bytes := by
  rw [encode_eq_bytes]
  rfl

end Sys2Proof
end

section
/-! The padding in each of its two forms (spec/41_engine.md R169, R172), and the statement about it. -/

namespace Sys2Proof.Machine

/-- Where the length still fits the block in progress: zeros up to it. -/
theorem padding_of_le {n : Nat} (h : n % 64 ≤ 55) :
    padding n = [0x80] ++ List.replicate (55 - n % 64) 0 ++ bytesBe64 (BitVec.ofNat 64 (8 * n)) := by
  have zeros : ((55 - (n : Int)) % 64).toNat = 55 - n % 64 := by omega
  rw [padding, zeros]
  rfl

/-- Where it does not: zeros up to the end of the block in progress, and a block of 56 more and the length. -/
theorem padding_of_ge {n : Nat} (h : 56 ≤ n % 64) :
    padding n = ([0x80] ++ List.replicate (63 - n % 64) 0) ++
      (List.replicate 56 0 ++ bytesBe64 (BitVec.ofNat 64 (8 * n))) := by
  have zeros : ((55 - (n : Int)) % 64).toNat = (63 - n % 64) + 56 := by omega
  rw [padding, zeros, List.replicate_add]
  simp

/-- The padding completes at least one block (R169, R174). -/
theorem padding_length_pos (n : Nat) : 0 < (padding n).length := by
  rw [length_padding]
  omega

/-- Settles O36: `z` is the residue that `padding` takes, and each claim about it is arithmetic modulo 64. -/
theorem paddingShape : Obligations.PaddingShape := by
  unfold Obligations.PaddingShape
  intro n hn
  have noWrap : (BitVec.ofNat 64 (8 * n)).toNat = 8 * n := by
    rw [BitVec.toNat_ofNat]
    omega
  refine ⟨((55 - (n : Int)) % 64).toNat, by omega, by omega, rfl, noWrap, length_padding n, length_padding_mod n, ?_, ?_⟩
  · rw [length_padding]
    omega
  · rw [length_padding]
    omega

end Sys2Proof.Machine
end

section
/-! The blocks of a byte sequence by number, `SHA256` by the engine's byte loop (spec/41_engine.md R174), and the statement about
`SHA256`. -/

namespace Sys2Proof.Machine

/-- Block `j` is the 64 bytes from `64 j` on. -/
theorem blocksOf_eq_map_range (m : Nat) (p : List Byte) :
    blocksOf m p = (List.range m).map fun j => block ((p.drop (64 * j)).take 64) := by
  induction m generalizing p with
  | zero => rfl
  | succ m ih =>
    have later (j : Nat) : (p.drop 64).drop (64 * j) = p.drop (64 * (j + 1)) := by
      rw [List.drop_drop, Nat.mul_succ, Nat.add_comm]
    simp only [blocksOf, ih, List.range_succ_eq_map, List.map_cons, List.map_map, memRead, later]
    rfl

/-- Folding `COMPRESS` over the blocks of a sequence, by their numbers. -/
theorem compressAll_blocksOf (S : HState) (m : Nat) (p : List Byte) :
    compressAll S (blocksOf m p) = (List.range m).foldl (fun S j => compress S (block ((p.drop (64 * j)).take 64))) S := by
  rw [compressAll, blocksOf_eq_map_range, List.foldl_map]

/-- `SHA256` is what the byte loop leaves of the padded message, from `IV` and an empty buffer. -/
theorem sha256_eq_absorb (msg : List Byte) : sha256 msg = ser (absorb (ivRom, []) (msg ++ padding msg.length)).1 := by
  rw [absorb_eq ivRom [] _ (by decide)]
  rfl

/-- Settles O39: the padding completes the last block, and the blocks are folded by their numbers. -/
theorem sha256FoldsPaddedBlocks : Obligations.Sha256FoldsPaddedBlocks := by
  unfold Obligations.Sha256FoldsPaddedBlocks
  intro msg _
  have total : (msg ++ padding msg.length).length = msg.length + (padding msg.length).length := List.length_append
  have whole := length_padding_mod msg.length
  have padded := padding_length_pos msg.length
  refine ⟨(msg ++ padding msg.length).length / 64, by omega, by omega, ?_⟩
  rw [← compressAll_blocksOf]
  rfl

end Sys2Proof.Machine
end

section
/-! What each engine command leaves in each of its cases (spec/41_engine.md R160 to R171), one equation of states for a case. -/

namespace Sys2Proof.Machine

/-! ### The engine's own operations -/

/-- The engine ENEW creates (R161). -/
def Engine.fresh : Engine := ⟨ivRom, [], 0⟩

/-- The engine after bytes have gone through the byte loop and been counted (R163). -/
def Engine.absorbed (e : Engine) (bytes : List Byte) : Engine :=
  ⟨(absorb (e.h, e.buf) bytes).1, (absorb (e.h, e.buf) bytes).2, e.n + BitVec.ofNat 64 bytes.length⟩

/-- The state EFINAL serializes: the padding has gone through the byte loop, uncounted (R170). -/
def Engine.finalState (e : Engine) : HState := (absorb (e.h, e.buf) (padding e.n.toNat)).1

@[simp] theorem Engine.absorbed_nil (e : Engine) : e.absorbed [] = e := by
  simp [Engine.absorbed]

/-- R165: one sequence after another is their concatenation; no wrap-around matters, since the count is taken modulo 2^64. -/
theorem Engine.absorbed_append (e : Engine) (a b : List Byte) : e.absorbed (a ++ b) = (e.absorbed a).absorbed b := by
  simp [Engine.absorbed, absorb_append, BitVec.ofNat_add, BitVec.add_assoc]

theorem Engine.toNat_absorbed_n {e : Engine} {bytes : List Byte} (h : e.n.toNat + bytes.length ≤ 2 ^ 64 - 1) :
    (e.absorbed bytes).n.toNat = e.n.toNat + bytes.length := by
  rw [Engine.absorbed, BitVec.toNat_add, BitVec.toNat_ofNat]
  omega

theorem engineAligned_iff (e : Engine) : engineAligned e = true ↔ e.n.toNat % 64 = 0 := by
  simp [engineAligned, engineFill]

/-- One padding block where the length fits the block in progress (R172). -/
theorem Engine.finalState_of_le {e : Engine} (inv : e.Inv) (h : e.n.toNat % 64 ≤ 55) :
    e.finalState = compress e.h (block (e.buf ++ [0x80] ++ List.replicate (55 - e.n.toNat % 64) 0 ++
      bytesBe64 (BitVec.ofNat 64 (8 * e.n.toNat)))) := by
  rw [Engine.finalState, padding_of_le h, absorb_block _ _ _ (by simp) (by simp [inv]; omega)]
  simp

/-- Two where it does not (R172). -/
theorem Engine.finalState_of_ge {e : Engine} (inv : e.Inv) (h : 56 ≤ e.n.toNat % 64) :
    e.finalState = compress (compress e.h (block (e.buf ++ [0x80] ++ List.replicate (63 - e.n.toNat % 64) 0)))
      (block (List.replicate 56 0 ++ bytesBe64 (BitVec.ofNat 64 (8 * e.n.toNat)))) := by
  rw [Engine.finalState, padding_of_ge h, absorb_append, absorb_block e.h e.buf _ (by simp) (by simp [inv]; omega),
    absorb_block _ _ _ (by simp) (by simp)]
  simp

/-! ### The commands -/

/-- R160, R252: the four commands that use the engine need one. -/
theorem exec_of_engine_none {i : Instr} {s : State} (hi : i.opcode ∈ [Opcode.einput, .ecanx, .emid, .efinal])
    (h : s.halt = false) (he : s.engine = none) : exec i s = .next (s.faulted 2 1) := by
  cases i with
  | einput | ecanx | emid | efinal => exact (unlessHalted_live h _).trans (withEngine_none he _)
  | _ => simp [Instr.opcode] at hi

/-- R161: ENEW leaves a fresh engine, whatever there was. -/
theorem exec_enew {s : State} (h : s.halt = false) :
    exec .enew s = .next (State.answered { s with engine := some .fresh } []) :=
  unlessHalted_live h _

/-- R162: EFROMMS needs a midstate. -/
theorem exec_efromms_none {s : State} (h : s.halt = false) (hm : s.midstate = none) :
    exec .efromms s = .next (s.faulted 2 2) :=
  (unlessHalted_live h _).trans (withMidstate_none hm _)

/-- R162: EFROMMS starts from the midstate, with an empty buffer. -/
theorem exec_efromms_some {s : State} {m : Midstate} (h : s.halt = false) (hm : s.midstate = some m) :
    exec .efromms s = .next (State.answered { s with engine := some ⟨deser m.mb, [], m.mn⟩ } []) :=
  (unlessHalted_live h _).trans (withMidstate_some hm _)

section
variable {s : State} {e : Engine} (h : s.halt = false) (he : s.engine = some e)
include h he

/-- R164: EINPUT of more bytes than the count can take. -/
theorem exec_einput_overflow {bytes : List Byte} (hn : 2 ^ 64 - 1 < e.n.toNat + bytes.length) :
    exec (.einput bytes) s = .next (s.faulted 5 e.n) := by
  rw [exec, execEinput, unlessHalted_live h, withEngine_some he, if_pos hn]
  rfl

/-- R163: EINPUT where they fit. -/
theorem exec_einput_fits {bytes : List Byte} (hn : e.n.toNat + bytes.length ≤ 2 ^ 64 - 1) :
    exec (.einput bytes) s = .next (State.answered { s with engine := some (e.absorbed bytes) } []) := by
  rw [exec, execEinput, unlessHalted_live h, withEngine_some he, if_neg (Nat.not_lt.mpr hn)]
  rfl

/-- R166: ECANX reads the count alone. -/
theorem exec_ecanx : exec .ecanx s = .next (s.answered [if e.n.toNat % 64 = 0 then 0x01 else 0x00]) := by
  rw [exec, execEcanx, unlessHalted_live h, withEngine_some he, respondOk_eq, boolByte]
  simp only [engineAligned_iff]

/-- R167: EMID at a block boundary. -/
theorem exec_emid_aligned (hn : e.n.toNat % 64 = 0) : exec .emid s =
    .next (State.answered { s with midstate := some ⟨ser e.h, e.n⟩ } ((ser e.h).toList ++ bytesBe64 e.n)) := by
  rw [exec, execEmid, unlessHalted_live h, withEngine_some he, if_pos ((engineAligned_iff e).mpr hn)]
  rfl

/-- R168: EMID off one. -/
theorem exec_emid_misaligned (hn : e.n.toNat % 64 ≠ 0) :
    exec .emid s = .next { s with rsp := s.rsp ++ [⟨.errBoundary, bytesBe64 e.n⟩] } := by
  rw [exec, execEmid, unlessHalted_live h, withEngine_some he, if_neg (mt (engineAligned_iff e).mp hn), returnBoundary_eq]

/-- R171: EFINAL where the bit length does not fit 64 bits. -/
theorem exec_efinal_overflow (hn : 2 ^ 61 ≤ e.n.toNat) : exec .efinal s = .next (s.faulted 5 e.n) := by
  rw [exec, execEfinal, unlessHalted_live h, withEngine_some he, if_pos hn]
  rfl

/-- R170: EFINAL where it does; the engine is gone. -/
theorem exec_efinal_fits (hn : e.n.toNat < 2 ^ 61) : exec .efinal s = .next (State.answered
    { s with engine := none, digest := some (ser e.finalState) } (ser e.finalState).toList) := by
  rw [exec, execEfinal, unlessHalted_live h, withEngine_some he, if_neg (Nat.not_le.mpr hn)]
  rfl

end

end Sys2Proof.Machine
end

section
/-! The statements about single engine commands (spec/41_engine.md R161 to R172). -/

namespace Sys2Proof.Machine

/-- Settles O28: the command's equation, with the vector written out. -/
theorem enewCreatesFreshEngine : Obligations.EnewCreatesFreshEngine :=
  ⟨rfl, fun _ h => exec_enew h⟩

/-- Settles O29: the command's equations; `DESER` undoes `SER`, so the midstate of `IV` gives the engine of ENEW. -/
theorem efrommsSeedsEngine : Obligations.EfrommsSeedsEngine := by
  unfold Obligations.EfrommsSeedsEngine
  refine ⟨rfl, fun _ => exec_efromms_none, fun _ _ => exec_efromms_some, fun s h hm => ?_⟩
  rw [exec_efromms_some h hm, deser_ser, exec_enew h, Engine.fresh]

/-- Settles O30: the byte loop compresses the whole blocks of the buffered and the new bytes and keeps the rest. -/
theorem einputAbsorbsBlocks : Obligations.EinputAbsorbsBlocks := by
  unfold Obligations.EinputAbsorbsBlocks
  refine ⟨fun bytes _ => encode_einput bytes, fun s bytes h he => exec_of_engine_none (by simp [Instr.opcode]) h he,
    fun s e bytes h he hn => exec_einput_overflow h he hn, fun s e bytes h he inv hn => ?_⟩
  have notFull : e.buf.length < 64 := by
    rw [inv]
    omega
  refine ⟨(e.absorbed bytes).n, Engine.toNat_absorbed_n hn, ?_⟩
  rw [exec_einput_fits h he hn, Engine.absorbed, absorb_eq _ _ _ notFull, compressAll_blocksOf]

/-- Settles O32: EMID answers OK at a boundary and the boundary error off one, which is what ECANX reports. -/
theorem ecanxReportsBoundary : Obligations.EcanxReportsBoundary := by
  unfold Obligations.EcanxReportsBoundary
  refine ⟨rfl, fun s => exec_of_engine_none (by simp [Instr.opcode]), fun s e h he =>
    ⟨exec_ecanx h he, ?_, fun aligned => ?_⟩⟩
  · rintro ⟨t, payload, ht, hr⟩
    by_contra misaligned
    rw [exec_emid_misaligned h he misaligned] at ht
    cases ht
    simp at hr
  · exact ⟨_, _, exec_emid_aligned h he aligned, rfl⟩

/-- Settles O33: the command's equation; a buffer of `N mod 64 = 0` bytes is empty. -/
theorem emidExtractsAtBoundary : Obligations.EmidExtractsAtBoundary := by
  unfold Obligations.EmidExtractsAtBoundary
  refine ⟨rfl, fun s => exec_of_engine_none (by simp [Instr.opcode]), fun s e h he aligned =>
    ⟨exec_emid_aligned h he aligned, ?_⟩⟩
  exact fun inv => List.eq_nil_of_length_eq_zero (inv.trans aligned)

/-- Settles O34: the command's equation off a boundary. -/
theorem emidOffBoundaryIsRecoverable : Obligations.EmidOffBoundaryIsRecoverable :=
  fun _ _ => exec_emid_misaligned

/-- Settles O38: the two commands' equations where the count does not fit. -/
theorem lengthFaults : Obligations.LengthFaults :=
  fun _ _ h he => ⟨fun _ => exec_einput_overflow h he, exec_efinal_overflow h he⟩

/-- Settles O37: the byte loop over the padding is one compression or two, as `N mod 64` says. -/
theorem efinalPadsCompressesAndConsumes : Obligations.EfinalPadsCompressesAndConsumes := by
  unfold Obligations.EfinalPadsCompressesAndConsumes
  refine ⟨rfl, fun s => exec_of_engine_none (by simp [Instr.opcode]), fun s e => exec_efinal_overflow,
    fun s e h he inv hn => ?_⟩
  exact ⟨e.finalState, Engine.finalState_of_le inv, Engine.finalState_of_ge inv, exec_efinal_fits h he hn⟩

end Sys2Proof.Machine
end

section
/-! Several engine commands in a row: a sequence of EINPUT commands, the way to a midstate and back, and the streaming path to a digest
(spec/41_engine.md R165, R173, R175); and the statements about them. -/

namespace Sys2Proof.Machine

/-- A sequence of EINPUT commands that fits leaves the engine of one EINPUT of the concatenation, and one empty OK for each. -/
theorem execAll_einputs {chunks : List (List Byte)} {s : State} {e : Engine} (h : s.halt = false) (he : s.engine = some e)
    (hn : e.n.toNat + chunks.flatten.length ≤ 2 ^ 64 - 1) :
    execAll (chunks.map .einput) s = .next { s with
      engine := some (e.absorbed chunks.flatten)
      rsp := s.rsp ++ List.replicate chunks.length ⟨.ok, []⟩ } := by
  induction chunks generalizing s e with
  | nil => simp [execAll, ← he]
  | cons c chunks ih =>
    rw [List.flatten_cons, List.length_append] at hn
    have fits : e.n.toNat + c.length ≤ 2 ^ 64 - 1 := by omega
    have rest : (e.absorbed c).n.toNat + chunks.flatten.length ≤ 2 ^ 64 - 1 := by
      rw [Engine.toNat_absorbed_n fits]
      omega
    have tail := ih (s := State.answered { s with engine := some (e.absorbed c) } []) h rfl rest
    rw [List.map_cons, execAll_cons (exec_einput_fits h he fits), tail, List.flatten_cons, Engine.absorbed_append]
    simp [State.answered, List.replicate_succ]

/-- A sequence of EINPUT commands and EFINAL answer the digest of the engine that absorbed the concatenation. -/
theorem execAll_einputs_efinal {chunks : List (List Byte)} {s : State} {e : Engine} (h : s.halt = false)
    (he : s.engine = some e) (hn : e.n.toNat + chunks.flatten.length < 2 ^ 61) :
    execAll (chunks.map .einput ++ [.efinal]) s = .next (State.answered { s with
      engine := none
      digest := some (ser (e.absorbed chunks.flatten).finalState)
      rsp := s.rsp ++ List.replicate chunks.length ⟨.ok, []⟩ } (ser (e.absorbed chunks.flatten).finalState).toList) := by
  have noWrap : e.n.toNat + chunks.flatten.length ≤ 2 ^ 64 - 1 := by omega
  have short : (e.absorbed chunks.flatten).n.toNat < 2 ^ 61 := by rwa [Engine.toNat_absorbed_n noWrap]
  exact (execAll_append (execAll_einputs h he noWrap)).trans (execAll_cons (exec_efinal_fits h rfl short))

/-- Settles O31: the engine after a sequence of EINPUT commands depends on the concatenation alone. -/
theorem einputIsConcatenative : Obligations.EinputIsConcatenative := by
  unfold Obligations.EinputIsConcatenative
  intro s e chunks₁ chunks₂ h he same hn
  exact ⟨_, _, e.absorbed chunks₁.flatten, execAll_einputs h he hn, execAll_einputs h he (same ▸ hn), rfl,
    congrArg (fun bytes => some (e.absorbed bytes)) same.symm, h, h⟩

/-- Settles O35: `DESER` undoes `SER`, the count is carried over, and the buffer was empty. -/
theorem resumptionRestoresEngine : Obligations.ResumptionRestoresEngine := by
  unfold Obligations.ResumptionRestoresEngine
  intro s e h he inv aligned
  have empty : e.buf = [] := List.eq_nil_of_length_eq_zero (inv.trans aligned)
  have restored : (⟨deser (ser e.h), [], e.n⟩ : Engine) = e := by rw [deser_ser, ← empty]
  exact ⟨_, (execAll_cons (exec_emid_aligned h he aligned)).trans (execAll_cons (exec_efromms_some h rfl)),
    congrArg some restored, h, rfl, rfl, rfl⟩

/-- The count of a fresh engine that absorbed a message is the message's length. -/
theorem Engine.toNat_fresh_absorbed_n {msg : List Byte} (h : msg.length < 2 ^ 61) :
    (Engine.fresh.absorbed msg).n.toNat = msg.length := by
  have zero : Engine.fresh.n.toNat = 0 := rfl
  rw [Engine.toNat_absorbed_n (by omega), zero, Nat.zero_add]

/-- A fresh engine that absorbed a message finalizes to its `SHA256` (R174, R175). -/
theorem Engine.ser_finalState_fresh_absorbed {msg : List Byte} (h : msg.length < 2 ^ 61) :
    ser (Engine.fresh.absorbed msg).finalState = sha256 msg := by
  rw [Engine.finalState, Engine.toNat_fresh_absorbed_n h, sha256_eq_absorb, absorb_append]
  rfl

/-- Settles O40: EINPUT absorbs the concatenation of the chunks, and EFINAL absorbs its padding. -/
theorem streamingComputesSha256 : Obligations.StreamingComputesSha256 := by
  unfold Obligations.StreamingComputesSha256
  intro s chunks h _ hn
  have noBytes : Engine.fresh.n.toNat = 0 := rfl
  have digest := Engine.ser_finalState_fresh_absorbed hn
  have absorbed := execAll_einputs_efinal (chunks := chunks) (s := State.answered { s with engine := some .fresh } []) h rfl
    (by omega)
  rw [digest] at absorbed
  exact ⟨_, (execAll_cons (exec_enew h)).trans absorbed, h, rfl, List.getLast?_concat⟩

end Sys2Proof.Machine
end

section
/-! The packets of the midstate commands and what each command leaves in each of its cases (spec/42_midstate.md R190 to R196), one
equation of states for a case; and the statements about MNEW and MPARTS. -/

namespace Sys2Proof.Machine

/-! ### The packets -/

/-- R93, R190: the packet of MNEW carries the 32 bytes and the count. -/
theorem encode_mnew (bytes : Bytes32) (n : U64) :
    encode (.mnew bytes n) = [0x20, 0x00, 0x00, 0x00] ++ (bytes.toList ++ bytesBe64 n) := by
  have noArg : (Instr.mnew bytes n).arg = 0 := rfl
  rw [encode_eq_bytes, noArg]
  rfl

/-- R93, R195: the packet of MTAG carries the tag after its length. -/
theorem encode_mtag (tag : List Byte) :
    encode (.mtag tag) = [0x22, 0x00] ++ bytesBe16 (BitVec.ofNat 16 tag.length) ++ tag := by
  rw [encode_eq_bytes]
  rfl

/-! ### The commands -/

section
variable {s : State} (h : s.halt = false)
include h

/-- R190: MNEW with a count of whole blocks. -/
theorem exec_mnew_aligned {n : U64} (hn : n.toNat % 64 = 0) (bytes : Bytes32) :
    exec (.mnew bytes n) s = .next (State.answered { s with midstate := some ⟨bytes, n⟩ } []) := by
  rw [exec, execMnew, unlessHalted_live h, if_neg (not_not_intro hn)]
  rfl

/-- R191: MNEW with any other count. -/
theorem exec_mnew_misaligned {n : U64} (hn : n.toNat % 64 ≠ 0) (bytes : Bytes32) :
    exec (.mnew bytes n) s = .next (s.faulted 3 n) := by
  rw [exec, execMnew, unlessHalted_live h, if_pos hn]
  rfl

/-- R193, R252: MPARTS needs a midstate. -/
theorem exec_mparts_none (hm : s.midstate = none) : exec .mparts s = .next (s.faulted 2 2) :=
  (unlessHalted_live h _).trans (withMidstate_none hm _)

/-- R193: MPARTS answers the two parts. -/
theorem exec_mparts_some {m : Midstate} (hm : s.midstate = some m) :
    exec .mparts s = .next (s.answered (m.mb.toList ++ bytesBe64 m.mn)) :=
  (unlessHalted_live h _).trans (withMidstate_some hm _)

/-- R195: MTAG leaves the tag's state and the count of one block, and answers both. -/
theorem exec_mtag (tag : List Byte) : exec (.mtag tag) s = .next (State.answered
    { s with midstate := some ⟨ser (tagState tag), 64⟩ } ((ser (tagState tag)).toList ++ bytesBe64 64)) :=
  unlessHalted_live h _

end

/-! ### The statements about MNEW and MPARTS -/

/-- Settles O41: the packet's bytes, and the command's equation for each kind of count. -/
theorem mnewBuildsAlignedMidstate : Obligations.MnewBuildsAlignedMidstate := by
  unfold Obligations.MnewBuildsAlignedMidstate
  refine ⟨fun bytes n => ?_, fun s bytes n h =>
    ⟨fun hn => exec_mnew_aligned h hn bytes, fun hn => exec_mnew_misaligned h hn bytes⟩⟩
  rw [encode_mnew, List.append_assoc]

/-- Settles O42: MPARTS answers what the packet of MNEW carries, so decoding that packet gives MNEW of the same parts. -/
theorem mpartsReturnsParts : Obligations.MpartsReturnsParts := by
  unfold Obligations.MpartsReturnsParts
  refine ⟨rfl, fun _ => exec_mparts_none, fun _ _ h hm => exec_mparts_some h hm, fun m rest s h aligned => ⟨?_, ?_⟩⟩
  · exact ⟨_, exec_mnew_aligned h aligned m.mb, rfl⟩
  · rw [← encode_mnew]
    exact decode_encode (i := .mnew m.mb m.mn) rfl rest

end Sys2Proof.Machine
end

section
/-! The engine behind a tag midstate (spec/42_midstate.md R195 to R197): MTAG's midstate is that of a fresh engine that absorbed
`T ‖ T`; and the statements about MTAG. -/

namespace Sys2Proof.Machine

/-- `T ‖ T` with `T = SHA256(tag)`, the one block that MTAG compresses (R195). -/
def tagBlock (tag : List Byte) : List Byte := (sha256 tag).toList ++ (sha256 tag).toList

@[simp] theorem length_tagBlock (tag : List Byte) : (tagBlock tag).length = 64 := by
  simp [tagBlock]

theorem tagState_eq_compress (tag : List Byte) : tagState tag = compress ivRom (block (tagBlock tag)) := rfl

/-- R195: a fresh engine that absorbed `T ‖ T` stands at the tag's state, with one whole block counted and none of it buffered. -/
theorem Engine.fresh_absorbed_tagBlock (tag : List Byte) : Engine.fresh.absorbed (tagBlock tag) = ⟨tagState tag, [], 64⟩ := by
  have notEmpty : tagBlock tag ≠ [] := List.ne_nil_of_length_pos (by simp)
  have oneBlock : absorb (ivRom, []) (tagBlock tag) = (tagState tag, []) := by
    rw [absorb_block ivRom [] _ notEmpty (by simp), tagState_eq_compress, List.nil_append]
  simp [Engine.absorbed, Engine.fresh, oneBlock]

/-- R197: MTAG and EFROMMS leave the engine that absorbed `T ‖ T`. -/
theorem execAll_mtag_efromms {s : State} (h : s.halt = false) (tag : List Byte) :
    ∃ t, execAll [.mtag tag, .efromms] s = .next t ∧ t.halt = false ∧
      t.engine = some (Engine.fresh.absorbed (tagBlock tag)) := by
  refine ⟨_, (execAll_cons (exec_mtag h tag)).trans (execAll_cons (exec_efromms_some h rfl)), h, ?_⟩
  rw [Engine.fresh_absorbed_tagBlock]
  exact congrArg (fun S => some (⟨S, [], 64⟩ : Engine)) (deser_ser (tagState tag))

/-- R196: ENEW, EINPUT of `T ‖ T` and EMID leave and answer the tag's midstate. -/
theorem execAll_enew_einput_emid_tagBlock {s : State} (h : s.halt = false) (tag : List Byte) :
    ∃ t, execAll [.enew, .einput (tagBlock tag), .emid] s = .next t ∧ t.midstate = some ⟨ser (tagState tag), 64⟩ ∧
      t.rsp.getLast? = some ⟨.ok, (ser (tagState tag)).toList ++ bytesBe64 64⟩ := by
  have fits : Engine.fresh.n.toNat + (tagBlock tag).length ≤ 2 ^ 64 - 1 := by simp [Engine.fresh]
  have input := exec_einput_fits (s := State.answered { s with engine := some .fresh } []) h rfl fits
  rw [Engine.fresh_absorbed_tagBlock] at input
  have aligned : (64 : U64).toNat % 64 = 0 := rfl
  exact ⟨_, (execAll_cons (exec_enew h)).trans ((execAll_cons input).trans (execAll_cons (exec_emid_aligned h rfl aligned))),
    rfl, List.getLast?_concat⟩

/-- Settles O43: the command's equation, and the same midstate by way of the engine. -/
theorem mtagBuildsTagMidstate : Obligations.MtagBuildsTagMidstate := by
  unfold Obligations.MtagBuildsTagMidstate
  exact ⟨fun tag _ => encode_mtag tag, fun _ tag h => ⟨exec_mtag h tag, execAll_enew_einput_emid_tagBlock h tag⟩⟩

/-- Settles O44: the engine absorbed `T ‖ T` before the chunks, so EFINAL answers `SHA256` of the whole. -/
theorem tagComposition : Obligations.TagComposition := by
  unfold Obligations.TagComposition
  intro s tag chunks h _ _ hn
  obtain ⟨t, start, ht, he⟩ := execAll_mtag_efromms h tag
  have total : (tagBlock tag ++ chunks.flatten).length = 64 + chunks.flatten.length := by simp
  have count : (Engine.fresh.absorbed (tagBlock tag)).n.toNat = 64 := by simp [Engine.fresh_absorbed_tagBlock]
  have digest := Engine.ser_finalState_fresh_absorbed (msg := tagBlock tag ++ chunks.flatten) (by omega)
  have absorbed := execAll_einputs_efinal (chunks := chunks) ht he (by omega)
  rw [← Engine.absorbed_append, digest] at absorbed
  rw [List.append_assoc [Instr.mtag tag, .efromms]]
  exact ⟨_, (execAll_append start).trans absorbed, ht, rfl, List.getLast?_concat⟩

end Sys2Proof.Machine
end

section
/-! The packets of the encoder commands and what each command leaves in each of its cases (spec/43_hexenc.md R210 to R219, R224), one
equation of states for a case. XPUTB and XPUTD are XPUTN of one byte and of the digest, so their cases are XPUTN's. -/

namespace Sys2Proof.Machine

/-! ### The packets -/

/-- A byte as `arg` (R94). -/
theorem bytesBe16_setWidth_byte (b : Byte) : bytesBe16 (b.setWidth 16) = [0x00, b] := by
  have upper : (b.setWidth 16).extractLsb' 8 8 = 0 := by
    apply BitVec.eq_of_getLsbD_eq
    intro i hi
    simp
  rw [bytesBe16, upper, extractLsb'_setWidth_byte]

/-- R94, R212: the packet of XPUTB carries the case and the byte in its header. -/
theorem encode_xputb (b : Byte) (c : Case) :
    encode (.xputb b c) = [0x41, if bitOfCase c then 0x01 else 0x00, 0x00, b] := by
  have arg : (Instr.xputb b c).arg = b.setWidth 16 := rfl
  rw [encode_eq_bytes, arg, bytesBe16_setWidth_byte]
  rfl

/-- R93, R215: the packet of XPUTN carries the case, the length and the bytes. -/
theorem encode_xputn (bytes : List Byte) (c : Case) :
    encode (.xputn bytes c) =
      [0x42, if bitOfCase c then 0x01 else 0x00] ++ bytesBe16 (BitVec.ofNat 16 bytes.length) ++ bytes := by
  rw [encode_eq_bytes]
  rfl

/-! ### The encoder's own operations -/

/-- The encoder with the two characters of each byte after its text (R213). -/
def Encoder.appended (x : Encoder) (bytes : List Byte) (c : Case) : Encoder :=
  ⟨x.xbuf ++ bytes.flatMap fun b => hexPair b c⟩

@[simp] theorem Encoder.appended_nil (x : Encoder) (c : Case) : x.appended [] c = x := by
  simp [Encoder.appended]

theorem Encoder.appended_cons (x : Encoder) (b : Byte) (bytes : List Byte) (c : Case) :
    x.appended (b :: bytes) c = Encoder.appended ⟨x.xbuf ++ hexPair b c⟩ bytes c := by
  simp [Encoder.appended]

@[simp] theorem Encoder.length_appended (x : Encoder) (bytes : List Byte) (c : Case) :
    (x.appended bytes c).xbuf.length = x.xbuf.length + 2 * bytes.length := by
  rw [Encoder.appended, List.length_append, length_hexText]

theorem encoderFull_iff (cap : Cap) (x : Encoder) : encoderFull cap x = true ↔ x.xbuf.length = cap.size := by
  simp [encoderFull, encoderPos]

/-! ### The commands -/

/-- R210, R252: the commands that use the encoder need one. -/
theorem exec_of_encoder_none {i : Instr} {s : State} (hi : i.opcode ∈ [Opcode.xputb, .xputn, .xfull, .xstr, .xclear])
    (h : s.halt = false) (hx : s.encoder = none) : exec i s = .next (s.faulted 2 4) := by
  cases i with
  | xputb | xputn | xfull | xstr | xclear => exact (unlessHalted_live h _).trans (withEncoder_none hx _)
  | _ => simp [Instr.opcode] at hi

/-- R214: XNEW leaves an empty encoder, whatever there was. -/
theorem exec_xnew {s : State} (h : s.halt = false) :
    exec .xnew s = .next (State.answered { s with encoder := some ⟨[]⟩ } []) :=
  unlessHalted_live h _

/-- R212: XPUTB is XPUTN of its one byte. -/
theorem exec_xputb_eq (b : Byte) (c : Case) (s : State) : exec (.xputb b c) s = exec (.xputn [b] c) s := rfl

/-- R217: XPUTD looks for the digest first. -/
theorem exec_xputd_none {s : State} (h : s.halt = false) (hd : s.digest = none) (c : Case) :
    exec (.xputd c) s = .next (s.faulted 2 3) :=
  (unlessHalted_live h _).trans (withDigest_none hd _)

/-- R217: with a digest, XPUTD is XPUTN of it. -/
theorem exec_xputd_some {s : State} {d : Bytes32} (h : s.halt = false) (hd : s.digest = some d) (c : Case) :
    exec (.xputd c) s = exec (.xputn d.toList c) s := by
  rw [exec, exec, execXputd, execXputn, unlessHalted_live h, unlessHalted_live h, withDigest_some hd]

section
variable {s : State} {x : Encoder} (h : s.halt = false) (hx : s.encoder = some x)
include h hx

/-- R213, R215: XPUTN of more bytes than fit writes nothing. -/
theorem exec_xputn_overflow {bytes : List Byte} (hn : s.cap.size - x.xbuf.length < 2 * bytes.length) (c : Case) :
    exec (.xputn bytes c) s = .next (s.faulted 4 (BitVec.ofNat 64 bytes.length)) := by
  rw [exec, execXputn, unlessHalted_live h, withEncoder_some hx, put_overflow hn]

/-- R213, R215: XPUTN where they fit. -/
theorem exec_xputn_fits {bytes : List Byte} (hn : 2 * bytes.length ≤ s.cap.size - x.xbuf.length) (c : Case) :
    exec (.xputn bytes c) s = .next (State.answered { s with encoder := some (x.appended bytes c) } []) := by
  rw [exec, execXputn, unlessHalted_live h, withEncoder_some hx, put_fits hn, Encoder.appended]

/-- R212: XPUTB where its two characters do not fit. -/
theorem exec_xputb_overflow (hn : s.cap.size - x.xbuf.length < 2) (b : Byte) (c : Case) :
    exec (.xputb b c) s = .next (s.faulted 4 1) :=
  (exec_xputb_eq b c s).trans (exec_xputn_overflow h hx (bytes := [b]) hn c)

/-- R212: XPUTB where they do. -/
theorem exec_xputb_fits (hn : 2 ≤ s.cap.size - x.xbuf.length) (b : Byte) (c : Case) :
    exec (.xputb b c) s = .next (State.answered { s with encoder := some ⟨x.xbuf ++ hexPair b c⟩ } []) := by
  rw [exec_xputb_eq, exec_xputn_fits h hx (bytes := [b]) hn, Encoder.appended_cons, Encoder.appended_nil]

/-- R217: XPUTD where the 64 characters do not fit. -/
theorem exec_xputd_overflow {d : Bytes32} (hd : s.digest = some d) (hn : s.cap.size - x.xbuf.length < 64) (c : Case) :
    exec (.xputd c) s = .next (s.faulted 4 32) := by
  rw [exec_xputd_some h hd, exec_xputn_overflow h hx (by simpa using hn), Vector.length_toList]
  rfl

/-- R217: XPUTD where they do. -/
theorem exec_xputd_fits {d : Bytes32} (hd : s.digest = some d) (hn : 64 ≤ s.cap.size - x.xbuf.length) (c : Case) :
    exec (.xputd c) s = .next (State.answered { s with encoder := some (x.appended d.toList c) } []) := by
  rw [exec_xputd_some h hd, exec_xputn_fits h hx (by simpa using hn)]

/-- R218: XFULL compares the length of the text with the capacity. -/
theorem exec_xfull : exec .xfull s = .next (s.answered [if x.xbuf.length = s.cap.size then 0x01 else 0x00]) := by
  rw [exec, execXfull, unlessHalted_live h, withEncoder_some hx, respondOk_eq, boolByte]
  simp only [encoderFull_iff]

/-- R219: XSTR answers the whole text. -/
theorem exec_xstr : exec .xstr s = .next (s.answered x.xbuf) := by
  rw [exec, execXstr, unlessHalted_live h, withEncoder_some hx, encoderPos, memRead_all, respondOk_eq]

/-- R224: XCLEAR leaves an empty encoder. -/
theorem exec_xclear : exec .xclear s = .next (State.answered { s with encoder := some ⟨[]⟩ } []) :=
  (unlessHalted_live h _).trans (withEncoder_some hx _)

end

end Sys2Proof.Machine
end

section
/-! The statements about single encoder commands (spec/43_hexenc.md R212 to R219, R224). -/

namespace Sys2Proof.Machine

/-- Settles O48: the two commands' equations. -/
theorem xnewAndXclearEmptyEncoder : Obligations.XnewAndXclearEmptyEncoder :=
  ⟨rfl, rfl, fun _ => exec_xnew, fun _ => exec_of_encoder_none (by simp [Instr.opcode]), fun _ _ => exec_xclear⟩

/-- Settles O49: the three commands' equations; with `POS` at most `CAP`, the check's subtraction is exact. -/
theorem putChecksCapacityThenWrites : Obligations.PutChecksCapacityThenWrites := by
  unfold Obligations.PutChecksCapacityThenWrites
  intro s x c h hx hpos
  exact ⟨fun b hn => exec_xputb_overflow h hx (by omega) b c, fun bytes hn => exec_xputn_overflow h hx (by omega) c,
    fun d hd hn => exec_xputd_overflow h hx hd (by omega) c, fun b hn => exec_xputb_fits h hx (by omega) b c,
    fun bytes hn => exec_xputn_fits h hx (by omega) c, fun d hd hn => exec_xputd_fits h hx hd (by omega) c⟩

/-- Settles O50: `POS` and `CAP` are even, so an encoder that is not full has room for two characters. -/
theorem xputbEncodesOneByte : Obligations.XputbEncodesOneByte := by
  unfold Obligations.XputbEncodesOneByte
  refine ⟨fun b => ⟨encode_xputb b .lower, encode_xputb b .upper⟩, fun s b c => exec_of_encoder_none (by simp [Instr.opcode]),
    fun s x b c h hx inv => ⟨fun full => exec_xputb_overflow h hx (by omega) b c, fun notFull => ?_⟩⟩
  obtain ⟨hpos, posEven, _⟩ := inv
  obtain ⟨capEven, _⟩ := capSize_bounds s.cap
  exact exec_xputb_fits h hx (by omega) b c

/-- Settles O51: the packet's bytes and the command's equations. -/
theorem xputnEncodesBytes : Obligations.XputnEncodesBytes := by
  unfold Obligations.XputnEncodesBytes
  exact ⟨fun bytes _ => ⟨encode_xputn bytes .lower, encode_xputn bytes .upper⟩,
    fun s bytes c => exec_of_encoder_none (by simp [Instr.opcode]),
    fun s x bytes c h hx hn => exec_xputn_overflow h hx hn c,
    fun s x bytes c h hx hn => exec_xputn_fits h hx (by omega) c⟩

/-- Settles O53: XPUTD is XPUTN of the digest, whose 32 bytes take 64 characters. -/
theorem xputdEncodesDigest : Obligations.XputdEncodesDigest := by
  unfold Obligations.XputdEncodesDigest
  refine ⟨⟨rfl, rfl⟩, fun s c h hd => exec_xputd_none h hd c, fun s d c h hd => ⟨exec_xputd_some h hd c, fun hx => ?_,
    fun x hx => ⟨fun hn => exec_xputd_overflow h hx hd hn c, fun hn => exec_xputd_fits h hx hd hn c⟩⟩⟩
  rw [exec_xputd_some h hd, exec_of_encoder_none (by simp [Instr.opcode]) h hx]

/-- Settles O54: the command's equation. -/
theorem xfullReportsFull : Obligations.XfullReportsFull :=
  ⟨rfl, fun _ => exec_of_encoder_none (by simp [Instr.opcode]), fun _ _ => exec_xfull⟩

/-- Settles O55: the command's equation; the text held is the `POS` bytes and no more. -/
theorem xstrReturnsText : Obligations.XstrReturnsText :=
  ⟨rfl, fun _ => exec_of_encoder_none (by simp [Instr.opcode]), fun _ _ => exec_xstr⟩

end Sys2Proof.Machine
end

section
/-! XPUTB commands in a row, where they fit and where they do not (spec/43_hexenc.md R216); and the statement that compares them with
one XPUTN. -/

namespace Sys2Proof.Machine

theorem sstat_not_mem_map_xputb (bytes : List Byte) (c : Case) : .sstat ∉ bytes.map fun b => Instr.xputb b c := by
  simp

/-- Where the bytes fit, their XPUTB commands append the characters of all, with one empty OK for each. -/
theorem execAll_xputbs_fit {bytes : List Byte} {c : Case} {s : State} {x : Encoder} (h : s.halt = false)
    (hx : s.encoder = some x) (hn : 2 * bytes.length ≤ s.cap.size - x.xbuf.length) :
    execAll (bytes.map fun b => .xputb b c) s = .next { s with
      encoder := some (x.appended bytes c)
      rsp := s.rsp ++ List.replicate bytes.length ⟨.ok, []⟩ } := by
  induction bytes generalizing s x with
  | nil => simp [execAll, ← hx]
  | cons b bytes ih =>
    rw [List.length_cons] at hn
    have room : 2 ≤ s.cap.size - x.xbuf.length := by omega
    have tail := ih (s := State.answered { s with encoder := some ⟨x.xbuf ++ hexPair b c⟩ } []) h rfl (by simp; omega)
    rw [List.map_cons, execAll_cons (exec_xputb_fits h hx room b c), tail, ← Encoder.appended_cons]
    simp [State.answered, List.replicate_succ]

/-- Against a buffer without room for two characters, the first XPUTB faults and the halted block refuses those after it. -/
theorem execAll_xputbs_overflow {b : Byte} {bytes : List Byte} {c : Case} {s : State} {x : Encoder} (h : s.halt = false)
    (hx : s.encoder = some x) (hn : s.cap.size - x.xbuf.length < 2) :
    ∃ t, execAll ((b :: bytes).map fun b => .xputb b c) s = .next t ∧ t.halt = true ∧ t.fcode = 4 ∧ t.finfo = 1 ∧
      t.encoder = some x :=
  ⟨_, (execAll_cons (exec_xputb_overflow h hx hn b c)).trans (execAll_halted (sstat_not_mem_map_xputb bytes c) rfl),
    rfl, rfl, rfl, hx⟩

/-- Settles O52: the XPUTB commands of the first bytes fit; the buffer they leave is full, as `POS` and `CAP` are even, so the command
of the next byte faults. -/
theorem xputnIsAllOrNothing : Obligations.XputnIsAllOrNothing := by
  unfold Obligations.XputnIsAllOrNothing
  intro s x bytes c h hx inv
  refine ⟨fun hn => ⟨_, _, x.appended bytes c, exec_xputn_fits h hx hn c, execAll_xputbs_fit h hx hn, rfl, rfl, h, h⟩,
    fun hn => ⟨exec_xputn_overflow h hx hn c, ?_⟩⟩
  obtain ⟨hpos, posEven, _⟩ := inv
  obtain ⟨capEven, _⟩ := capSize_bounds s.cap
  generalize hm : (s.cap.size - x.xbuf.length) / 2 = m
  have hlt : m < bytes.length := by omega
  have written : 2 * (bytes.take m).length = s.cap.size - x.xbuf.length := by
    rw [List.length_take_of_le hlt.le]
    omega
  have full : (x.appended (bytes.take m) c).xbuf.length = s.cap.size := by
    rw [Encoder.length_appended]
    omega
  have first := execAll_xputbs_fit (c := c) h hx written.le
  obtain ⟨t, rest, hhalt, hcode, hinfo, henc⟩ := execAll_xputbs_overflow (b := bytes[m]) (bytes := bytes.drop (m + 1))
    (c := c) (s := { s with
      encoder := some (x.appended (bytes.take m) c)
      rsp := s.rsp ++ List.replicate (bytes.take m).length ⟨.ok, []⟩ }) h rfl (by simp only [full]; omega)
  refine ⟨t, _, ?_, hhalt, hcode, hinfo, henc, full, rfl⟩
  rw [← rest, ← execAll_append first, ← List.map_append, List.getElem_cons_drop, List.take_append_drop]

end Sys2Proof.Machine
end

section
/-! The digits of a byte and how to read them back (spec/43_hexenc.md R211, R220, R221); and the statements about them. -/

namespace Sys2Proof.Machine

/-! ### Reading digits back -/

/-- The value of a digit of either case: its low four bits, and for a letter 9 more. -/
def digitValue (b : Byte) : BitVec 4 := if b.toNat ≤ 0x39 then b.extractLsb' 0 4 else b.extractLsb' 0 4 + 9

theorem digitValue_hexDigit (c : Case) (d : BitVec 4) : digitValue (hexDigit c d) = d := by
  revert d
  cases c <;> decide

/-- The byte that two hex digits of either case stand for, high nibble first (R221). -/
def decodePair : List Byte → Option Byte
  | [a, b] => if isHexDigit a && isHexDigit b then some (digitValue a ++ digitValue b) else none
  | _ => none

theorem nibbles_append (v : Byte) : v.extractLsb' 4 4 ++ v.extractLsb' 0 4 = v :=
  (BitVec.extractLsb'_append_extractLsb'_eq_extractLsb' rfl).trans BitVec.extractLsb'_eq_self

theorem decodePair_hexPair (v : Byte) (c : Case) : decodePair (hexPair v c) = some v := by
  simp [decodePair, hexPair, isHexDigit_hexDigit, digitValue_hexDigit, nibbles_append]

theorem hexPair_injective (c : Case) : Function.Injective fun v => hexPair v c := fun v v' h => by
  simpa [decodePair_hexPair] using congrArg decodePair h

/-- Settles O46: `HEXPAIR` reads the tables, and each table has sixteen entries. -/
theorem hexpairDigits : Obligations.HexpairDigits :=
  ⟨fun _ => ⟨rfl, rfl⟩, by decide, by decide⟩

/-- Settles O47: one decoder undoes `HEXPAIR` in both cases, so `HEXPAIR` is injective in each. -/
theorem hexpairCanBeDecoded : Obligations.HexpairCanBeDecoded :=
  ⟨fun _ _ c h => hexPair_injective c h, decodePair, decodePair_hexPair⟩

/-! ### The text of an encoder that meets the invariant -/

/-- The bytes that count as hex digits are the 22 codes of R32. -/
theorem mem_codes_of_isHexDigit {b : Byte} (h : isHexDigit b = true) :
    b ∈ ([0x30, 0x31, 0x32, 0x33, 0x34, 0x35, 0x36, 0x37, 0x38, 0x39, 0x61, 0x62, 0x63, 0x64, 0x65, 0x66,
      0x41, 0x42, 0x43, 0x44, 0x45, 0x46] : List Byte) := by
  simp only [isHexDigit, Bool.or_eq_true, Bool.and_eq_true, decide_eq_true_eq] at h
  simp only [List.mem_cons, List.not_mem_nil, ← BitVec.toNat_inj, BitVec.reduceToNat]
  omega

/-- Settles O56: XSTR answers the text, of which the invariant says just this. -/
theorem xstrTextIsHexDigits : Obligations.XstrTextIsHexDigits := by
  unfold Obligations.XstrTextIsHexDigits
  rintro s x ⟨_, _, encoderInv, _, _⟩ h hx
  obtain ⟨_, posEven, digits⟩ := encoderInv x hx
  exact ⟨x.xbuf, exec_xstr h hx, posEven, fun b hb => mem_codes_of_isHexDigit (List.all_eq_true.mp digits b hb)⟩

end Sys2Proof.Machine
end

section
/-! What SSTAT and DREAD do (spec/44_system.md R240 and R242), and the statements about them. -/

namespace Sys2Proof.Machine

/-! ### SSTAT -/

/-- R35: the status byte is built bit by bit, from its three zeros down to `HALT`. -/
theorem statusByte_eq_concat (s : State) : statusByte s =
    (((((0#3).concat s.encoder.isSome).concat s.digest.isSome).concat s.midstate.isSome).concat s.engine.isSome).concat
      s.halt := rfl

/-- R240: the bits of the status byte. -/
theorem statusByte_getLsbD (s : State) (i : Nat) : (statusByte s).getLsbD i =
    [s.halt, s.engine.isSome, s.midstate.isSome, s.digest.isSome, s.encoder.isSome].getD i false := by
  rw [statusByte_eq_concat]
  rcases i with _ | _ | _ | _ | _ | i <;> simp

theorem statusByte_toNat_lt (s : State) : (statusByte s).toNat < 32 := by
  have upperZero : ∀ i ≥ 5, (statusByte s).toNat.testBit i = false := fun i hi => by
    rw [BitVec.testBit_toNat, statusByte_getLsbD, List.getD_eq_default _ _ hi]
  exact Nat.lt_pow_two_of_testBit (n := 5) _ upperZero

/-- R240: SSTAT answers on every block, halted or not. -/
theorem exec_sstat (s : State) : exec .sstat s = .next (s.answered (statusByte s :: s.fcode :: bytesBe64 s.finfo)) :=
  respondOk_eq _ s

/-- Settles O57: the byte that SSTAT answers first is the status byte, whose bits are the five flags. -/
theorem sstatReportsStatus : Obligations.SstatReportsStatus :=
  ⟨encode_eq_bytes .sstat, fun s => ⟨statusByte s, exec_sstat s, statusByte_getLsbD s 0, statusByte_getLsbD s 1,
    statusByte_getLsbD s 2, statusByte_getLsbD s 3, statusByte_getLsbD s 4, statusByte_toNat_lt s⟩⟩

/-! ### DREAD -/

/-- R242: DREAD needs a digest. -/
theorem exec_dread_none {s : State} (h : s.halt = false) (hd : s.digest = none) :
    exec .dread s = .next (s.faulted 2 3) :=
  (unlessHalted_live h _).trans (withDigest_none hd _)

/-- R242: DREAD answers the digest. -/
theorem exec_dread_some {s : State} {d : Bytes32} (h : s.halt = false) (hd : s.digest = some d) :
    exec .dread s = .next (s.answered d.toList) :=
  (unlessHalted_live h _).trans (withDigest_some hd _)

/-- Settles O58: DREAD with and without a digest. -/
theorem dreadReturnsDigest : Obligations.DreadReturnsDigest :=
  ⟨encode_eq_bytes .dread, fun _ => exec_dread_none, fun _ _ => exec_dread_some⟩

end Sys2Proof.Machine
end

section
/-! Steps of a live and of a halted block, and the faults they take (spec/60_exceptions.md R252 to R260). -/

namespace Sys2Proof.Machine

/-! ### Illegal headers -/

/-- Settles O8: a header that matches no row is one that the check refuses, so its whole packet decodes as illegal. -/
theorem illegalHeaderFaults : Obligations.IllegalHeaderFaults := by
  unfold Obligations.IllegalHeaderFaults
  intro s hdr payload rest hs hcmd hl noRow
  obtain ⟨why, hc⟩ := (checkHeader_error_iff_no_row hdr).mpr noRow
  exact step_illegal_live hs (decode_illegal_iff.mpr ⟨payload, hl, hcmd, hc⟩)

/-! ### The halted block -/

/-- A step whose packet is a command executes it with the packet consumed (spec/30_encoding.md R95). -/
theorem step_packet {s : State} {i : Instr} {rest : List Byte} (hd : decode s.cmd = .packet i rest) :
    step s = exec i { s with cmd := rest } := by
  rw [step, fetch_command hd]

/-- A whole packet with an illegal header is consumed and refused on a halted block (R259, R260). -/
theorem step_illegal_halted {s : State} {hdr : Word} {why : Illegal} {rest : List Byte} (hs : s.halt = true)
    (hd : decode s.cmd = .illegal hdr why rest) : step s = .next (State.refusedHalted { s with cmd := rest }) := by
  rw [step, fetch_illegal hd]
  exact unlessHalted_halted (s := { s with cmd := rest }) hs _

/-- On a halted block no command changes `HALT`, `FCODE` or `FINFO`: it is refused or it is SSTAT, which completes. -/
theorem exec_halted_keeps_fault {i : Instr} {s t : State} (hs : s.halt = true) (hx : exec i s = .next t) :
    t.halt = true ∧ t.fcode = s.fcode ∧ t.finfo = s.finfo := by
  cases exec_next hx with
  | refused => exact ⟨hs, rfl, rfl⟩
  | faulted live | boundary live => simp [hs] at live
  | completed _ u hu payload => exact ⟨hu.halt.trans hs, hu.fcode, hu.finfo⟩

/-- R260: no step of a halted block changes `HALT`, `FCODE` or `FINFO`. -/
theorem step_halted_keeps_fault {s t : State} (hs : s.halt = true) (h : step s = .next t) :
    t.halt = true ∧ t.fcode = s.fcode ∧ t.finfo = s.finfo := by
  rcases step_next h with ⟨i, rest, _, hx⟩ | ⟨hdr, why, rest, _, ⟨_, rfl⟩ | ⟨live, _⟩⟩
  · exact exec_halted_keeps_fault (s := { s with cmd := rest }) hs hx
  · exact ⟨hs, rfl, rfl⟩
  · simp [hs] at live

/-- Settles O9: the three kinds of packet, each consumed and answered as the shared halted check says. -/
theorem haltedBlockOnlyAnswersSstat : Obligations.HaltedBlockOnlyAnswersSstat := by
  unfold Obligations.HaltedBlockOnlyAnswersSstat
  refine fun s hs => ⟨fun i rest hd hi => ?_, fun hdr why rest => step_illegal_halted hs, fun rest hd => ?_,
    fun t => step_halted_keeps_fault hs, rfl, rfl, rfl, rfl, rfl⟩
  · rw [step_packet hd, exec_halted (s := { s with cmd := rest }) hs hi]
  · rw [step_packet hd, exec_sstat]
    rfl

/-! ### Taking a fault -/

/-- A command that halts a live block took a fault and did nothing else (R258). -/
theorem exec_takes_fault {i : Instr} {s t : State} (hs : s.halt = false) (ht : t.halt = true)
    (hx : exec i s = .next t) : ∃ code info, t = s.faulted code info := by
  cases exec_next hx with
  | refused halted => simp [hs] at halted
  | faulted _ code info => exact ⟨faultByte code, info, rfl⟩
  | boundary => simp [hs] at ht
  | completed _ u hu payload => simp [hu.halt, hs] at ht

/-- A step that halts a live block consumed its packet, took a fault and did nothing else (R258, R259). -/
theorem step_takes_fault {s t : State} (hs : s.halt = false) (ht : t.halt = true) (h : step s = .next t) :
    ∃ rest code info, t = State.faulted { s with cmd := rest } code info := by
  rcases step_next h with ⟨i, rest, _, hx⟩ | ⟨hdr, why, rest, _, ⟨halted, _⟩ | ⟨_, rfl⟩⟩
  · exact ⟨rest, exec_takes_fault (s := { s with cmd := rest }) hs ht hx⟩
  · simp [hs] at halted
  · exact ⟨rest, _, _, rfl⟩

/-- Settles O12: the fault entry of the step, with its code and information read back, and the packet every step consumes. -/
theorem faultEntryChangesNothingElse : Obligations.FaultEntryChangesNothingElse := by
  unfold Obligations.FaultEntryChangesNothingElse
  intro s t h hs ht
  refine ⟨?_, step_consumes_packet h⟩
  obtain ⟨rest, code, info, rfl⟩ := step_takes_fault hs ht h
  rfl

/-! ### Missing objects -/

/-- R252: a command that only creates an object goes on whatever exists. -/
theorem exec_creates {i : Instr} {s : State} (h : s.halt = false) (hi : i.opcode ∈ [Opcode.enew, .mtag, .xnew]) :
    ∃ t, exec i s = .next t ∧ t.halt = false := by
  cases i with
  | enew => exact ⟨_, exec_enew h, h⟩
  | mtag tag => exact ⟨_, exec_mtag h tag, h⟩
  | xnew => exact ⟨_, exec_xnew h, h⟩
  | _ => simp [Instr.opcode] at hi

/-- Settles O14: each command's equation where its object is missing, and where the object it creates may exist. -/
theorem missingObjectFaults : Obligations.MissingObjectFaults := by
  unfold Obligations.MissingObjectFaults
  refine fun s h => ⟨fun i => exec_creates h, fun bytes n hn => ⟨_, exec_mnew_aligned h hn bytes, h⟩, fun hm => ?_,
    fun e he hn => ⟨_, exec_emid_aligned h he hn, h⟩, fun e he hn => ⟨_, exec_efinal_fits h he hn, h⟩, fun he => ?_,
    fun hm => ⟨exec_efromms_none h hm, exec_mparts_none h hm⟩,
    fun hd => ⟨exec_dread_none h hd, exec_xputd_none h hd⟩, fun hx => ?_⟩
  · obtain ⟨m, hm⟩ := Option.ne_none_iff_exists'.mp hm
    exact ⟨_, exec_efromms_some h hm, h⟩
  · have needsEngine {i : Instr} (hi : i.opcode ∈ [Opcode.einput, .ecanx, .emid, .efinal]) :=
      exec_of_engine_none hi h he
    exact ⟨fun bytes => needsEngine (by simp [Instr.opcode]), needsEngine (by decide), needsEngine (by decide),
      needsEngine (by decide)⟩
  · have needsEncoder {i : Instr} (hi : i.opcode ∈ [Opcode.xputb, .xputn, .xfull, .xstr, .xclear]) :=
      exec_of_encoder_none hi h hx
    refine ⟨fun b c => needsEncoder (by simp [Instr.opcode]), fun bytes c => needsEncoder (by simp [Instr.opcode]),
      needsEncoder (by decide), needsEncoder (by decide), needsEncoder (by decide), fun hd c => ?_⟩
    obtain ⟨d, hd⟩ := Option.ne_none_iff_exists'.mp hd
    rw [exec_xputd_some h hd]
    exact needsEncoder (by simp [Instr.opcode])

end Sys2Proof.Machine
end

section
/-! How a command ends, with what it leaves (spec/60_exceptions.md R250, R252, R258, R260): the fault codes of each command, and for each
command the cases in which it completes, with the state and the answer. -/

namespace Sys2Proof.Machine

/-- The values that a command can write to `FCODE` once its header is legal (spec/60_exceptions.md R250, R252). -/
def faultCodes : Opcode → List Byte
  | .sstat | .enew | .mtag | .xnew => []
  | .efromms | .mparts | .dread | .ecanx | .emid | .xfull | .xstr | .xclear => [2]
  | .einput | .efinal => [2, 5]
  | .mnew => [3]
  | .xputb | .xputn | .xputd => [2, 4]

/-- Where each command completes: from `s` it leaves `u`, but for the response stream, and answers `payload`. -/
inductive Completes (s : State) : Instr → State → List Byte → Prop where
  | sstat : Completes s .sstat s (statusByte s :: s.fcode :: bytesBe64 s.finfo)
  | enew : Completes s .enew { s with engine := some .fresh } []
  | efromms {m : Midstate} (hm : s.midstate = some m) :
      Completes s .efromms { s with engine := some ⟨deser m.mb, [], m.mn⟩ } []
  | einput {bytes : List Byte} {e : Engine} (he : s.engine = some e) (hn : e.n.toNat + bytes.length ≤ 2 ^ 64 - 1) :
      Completes s (.einput bytes) { s with engine := some (e.absorbed bytes) } []
  | ecanx {e : Engine} (he : s.engine = some e) : Completes s .ecanx s [if e.n.toNat % 64 = 0 then 0x01 else 0x00]
  | emid {e : Engine} (he : s.engine = some e) (hn : e.n.toNat % 64 = 0) :
      Completes s .emid { s with midstate := some ⟨ser e.h, e.n⟩ } ((ser e.h).toList ++ bytesBe64 e.n)
  | efinal {e : Engine} (he : s.engine = some e) (hn : e.n.toNat < 2 ^ 61) :
      Completes s .efinal { s with engine := none, digest := some (ser e.finalState) } (ser e.finalState).toList
  | mnew {bytes : Bytes32} {n : U64} (hn : n.toNat % 64 = 0) :
      Completes s (.mnew bytes n) { s with midstate := some ⟨bytes, n⟩ } []
  | mparts {m : Midstate} (hm : s.midstate = some m) : Completes s .mparts s (m.mb.toList ++ bytesBe64 m.mn)
  | mtag {tag : List Byte} : Completes s (.mtag tag) { s with midstate := some ⟨ser (tagState tag), 64⟩ }
      ((ser (tagState tag)).toList ++ bytesBe64 64)
  | dread {d : Bytes32} (hd : s.digest = some d) : Completes s .dread s d.toList
  | xnew : Completes s .xnew { s with encoder := some ⟨[]⟩ } []
  | xputb {b : Byte} {c : Case} {x : Encoder} (hx : s.encoder = some x) (hn : 2 ≤ s.cap.size - x.xbuf.length) :
      Completes s (.xputb b c) { s with encoder := some (x.appended [b] c) } []
  | xputn {bytes : List Byte} {c : Case} {x : Encoder} (hx : s.encoder = some x)
      (hn : 2 * bytes.length ≤ s.cap.size - x.xbuf.length) :
      Completes s (.xputn bytes c) { s with encoder := some (x.appended bytes c) } []
  | xfull {x : Encoder} (hx : s.encoder = some x) :
      Completes s .xfull s [if x.xbuf.length = s.cap.size then 0x01 else 0x00]
  | xstr {x : Encoder} (hx : s.encoder = some x) : Completes s .xstr s x.xbuf
  | xclear {x : Encoder} (hx : s.encoder = some x) : Completes s .xclear { s with encoder := some ⟨[]⟩ } []
  | xputd {d : Bytes32} {c : Case} {x : Encoder} (hd : s.digest = some d) (hx : s.encoder = some x)
      (hn : 64 ≤ s.cap.size - x.xbuf.length) :
      Completes s (.xputd c) { s with encoder := some (x.appended d.toList c) } []

/-- The ways a command ends, as `Ended` has them, with the fault's code and what completing leaves. -/
inductive CommandOutcome (i : Instr) (s : State) : State → Prop where
  | refused (halted : s.halt = true) : CommandOutcome i s s.refusedHalted
  | faulted (live : s.halt = false) {code : Byte} (hc : code ∈ faultCodes i.opcode) (info : U64) :
      CommandOutcome i s (s.faulted code info)
  | boundary (live : s.halt = false) (info : U64) :
      CommandOutcome i s { s with rsp := s.rsp ++ [⟨.errBoundary, bytesBe64 info⟩] }
  | completed {u : State} {payload : List Byte} (hu : Completes s i u payload) : CommandOutcome i s (u.answered payload)

/-- A command that goes on, with what it leaves. -/
abbrev HasOutcome (i : Instr) (s : State) : Prop := ∃ t, exec i s = .next t ∧ CommandOutcome i s t

section
variable {s : State} (live : s.halt = false)
include live

theorem hasOutcome_of_engine {i : Instr} (hi : i.opcode ∈ [Opcode.einput, .ecanx, .emid, .efinal])
    (h : ∀ e, s.engine = some e → HasOutcome i s) : HasOutcome i s := by
  have noObj : ∀ o ∈ [Opcode.einput, .ecanx, .emid, .efinal], (2 : Byte) ∈ faultCodes o := by decide
  cases he : s.engine with
  | none => exact ⟨_, exec_of_engine_none hi live he, .faulted live (noObj _ hi) 1⟩
  | some e => exact h e he

theorem hasOutcome_of_encoder {i : Instr} (hi : i.opcode ∈ [Opcode.xputb, .xputn, .xfull, .xstr, .xclear])
    (h : ∀ x, s.encoder = some x → HasOutcome i s) : HasOutcome i s := by
  have noObj : ∀ o ∈ [Opcode.xputb, .xputn, .xfull, .xstr, .xclear], (2 : Byte) ∈ faultCodes o := by decide
  cases hx : s.encoder with
  | none => exact ⟨_, exec_of_encoder_none hi live hx, .faulted live (noObj _ hi) 4⟩
  | some x => exact h x hx

/-- Every command on a live block. -/
theorem hasOutcome_live (i : Instr) : HasOutcome i s := by
  cases i with
  | sstat => exact ⟨_, exec_sstat s, .completed .sstat⟩
  | enew => exact ⟨_, exec_enew live, .completed .enew⟩
  | efromms =>
    cases hm : s.midstate with
    | none => exact ⟨_, exec_efromms_none live hm, .faulted live (.head _) 2⟩
    | some m => exact ⟨_, exec_efromms_some live hm, .completed (.efromms hm)⟩
  | einput bytes =>
    refine hasOutcome_of_engine live (by simp [Instr.opcode]) fun e he => ?_
    by_cases hn : e.n.toNat + bytes.length ≤ 2 ^ 64 - 1
    · exact ⟨_, exec_einput_fits live he hn, .completed (.einput he hn)⟩
    · exact ⟨_, exec_einput_overflow live he (by omega), .faulted live (.tail _ (.head _)) e.n⟩
  | ecanx =>
    exact hasOutcome_of_engine live (by decide) fun e he => ⟨_, exec_ecanx live he, .completed (.ecanx he)⟩
  | emid =>
    refine hasOutcome_of_engine live (by decide) fun e he => ?_
    by_cases hn : e.n.toNat % 64 = 0
    · exact ⟨_, exec_emid_aligned live he hn, .completed (.emid he hn)⟩
    · exact ⟨_, exec_emid_misaligned live he hn, .boundary live e.n⟩
  | efinal =>
    refine hasOutcome_of_engine live (by decide) fun e he => ?_
    by_cases hn : e.n.toNat < 2 ^ 61
    · exact ⟨_, exec_efinal_fits live he hn, .completed (.efinal he hn)⟩
    · exact ⟨_, exec_efinal_overflow live he (by omega), .faulted live (.tail _ (.head _)) e.n⟩
  | mnew bytes n =>
    by_cases hn : n.toNat % 64 = 0
    · exact ⟨_, exec_mnew_aligned live hn bytes, .completed (.mnew hn)⟩
    · exact ⟨_, exec_mnew_misaligned live hn bytes, .faulted live (.head _) n⟩
  | mparts =>
    cases hm : s.midstate with
    | none => exact ⟨_, exec_mparts_none live hm, .faulted live (.head _) 2⟩
    | some m => exact ⟨_, exec_mparts_some live hm, .completed (.mparts hm)⟩
  | mtag tag => exact ⟨_, exec_mtag live tag, .completed .mtag⟩
  | dread =>
    cases hd : s.digest with
    | none => exact ⟨_, exec_dread_none live hd, .faulted live (.head _) 3⟩
    | some d => exact ⟨_, exec_dread_some live hd, .completed (.dread hd)⟩
  | xnew => exact ⟨_, exec_xnew live, .completed .xnew⟩
  | xputb b c =>
    refine hasOutcome_of_encoder live (by simp [Instr.opcode]) fun x hx => ?_
    by_cases hn : 2 ≤ s.cap.size - x.xbuf.length
    · exact ⟨_, exec_xputn_fits live hx (bytes := [b]) hn c, .completed (.xputb hx hn)⟩
    · exact ⟨_, exec_xputb_overflow live hx (by omega) b c, .faulted live (.tail _ (.head _)) 1⟩
  | xputn bytes c =>
    refine hasOutcome_of_encoder live (by simp [Instr.opcode]) fun x hx => ?_
    by_cases hn : 2 * bytes.length ≤ s.cap.size - x.xbuf.length
    · exact ⟨_, exec_xputn_fits live hx hn c, .completed (.xputn hx hn)⟩
    · exact ⟨_, exec_xputn_overflow live hx (by omega) c, .faulted live (.tail _ (.head _)) _⟩
  | xfull =>
    exact hasOutcome_of_encoder live (by decide) fun x hx => ⟨_, exec_xfull live hx, .completed (.xfull hx)⟩
  | xstr =>
    exact hasOutcome_of_encoder live (by decide) fun x hx => ⟨_, exec_xstr live hx, .completed (.xstr hx)⟩
  | xclear =>
    exact hasOutcome_of_encoder live (by decide) fun x hx => ⟨_, exec_xclear live hx, .completed (.xclear hx)⟩
  | xputd c =>
    cases hd : s.digest with
    | none => exact ⟨_, exec_xputd_none live hd c, .faulted live (.head _) 3⟩
    | some d =>
      cases hx : s.encoder with
      | none =>
        exact ⟨_, (exec_xputd_some live hd c).trans (exec_of_encoder_none (by simp [Instr.opcode]) live hx),
          .faulted live (.head _) 4⟩
      | some x =>
        by_cases hn : 64 ≤ s.cap.size - x.xbuf.length
        · exact ⟨_, exec_xputd_fits live hx hd hn c, .completed (.xputd hd hx hn)⟩
        · exact ⟨_, exec_xputd_overflow live hx hd (by omega) c, .faulted live (.tail _ (.head _)) 32⟩

end

/-- Every command on every block. -/
theorem exec_outcome {i : Instr} {s t : State} (h : exec i s = .next t) : CommandOutcome i s t := by
  obtain ⟨t', h', ho⟩ : HasOutcome i s := by
    cases hs : s.halt with
    | false => exact hasOutcome_live hs i
    | true =>
      by_cases hi : i = .sstat
      · subst hi
        exact ⟨_, exec_sstat s, .completed .sstat⟩
      · exact ⟨_, exec_halted hs hi, .refused hs⟩
  rw [h'] at h
  cases h
  exact ho

end Sys2Proof.Machine
end

section
/-! The invariant of the state between commands (spec/10_state.md R25 to R37, spec/30_encoding.md R104, R105): how each update of the state
keeps it, that every step keeps it, and what it says of the response stream. -/

namespace Sys2Proof.Machine

/-! ### The updates of the state -/

theorem State.Inv.setEngine {s : State} {v : Option Engine} (hs : s.Inv) (hv : ∀ e ∈ v, e.Inv) :
    (setEngine v s).Inv := by
  obtain ⟨_, hm, hx, hf, hr⟩ := hs
  exact ⟨hv, hm, hx, hf, hr⟩

theorem State.Inv.setMidstate {s : State} {v : Option Midstate} (hs : s.Inv) (hv : ∀ m ∈ v, m.Inv) :
    (setMidstate v s).Inv := by
  obtain ⟨he, _, hx, hf, hr⟩ := hs
  exact ⟨he, hv, hx, hf, hr⟩

theorem State.Inv.setDigest {s : State} (hs : s.Inv) (v : Option Bytes32) : (setDigest v s).Inv := hs

theorem State.Inv.setEncoder {s : State} {v : Option Encoder} (hs : s.Inv) (hv : ∀ x ∈ v, x.Inv s.cap) :
    (setEncoder v s).Inv := by
  obtain ⟨he, hm, _, hf, hr⟩ := hs
  exact ⟨he, hm, hv, hf, hr⟩

theorem State.Inv.setCmd {s : State} (hs : s.Inv) (bytes : List Byte) : (setCmd bytes s).Inv := hs

theorem State.Inv.setFault {s : State} {code : Byte} (hs : s.Inv) (hc : 1 ≤ code.toNat ∧ code.toNat ≤ 5) (info : U64) :
    (setFault code info s).Inv := by
  obtain ⟨he, hm, hx, _, hr⟩ := hs
  exact ⟨he, hm, hx, ⟨nofun, fun _ => hc⟩, hr⟩

theorem State.Inv.emit {s : State} {r : Response} (hs : s.Inv) (hr : responseFits r = true) : (emit r s).Inv := by
  obtain ⟨he, hm, hx, hf, hrs⟩ := hs
  exact ⟨he, hm, hx, hf, by simp [hrs, hr]⟩

/-! ### What a command leaves -/

theorem State.Inv.answered {s : State} {payload : List Byte} (hs : s.Inv) (hp : payload.length ≤ 65535) :
    (s.answered payload).Inv :=
  hs.emit (by simpa [responseFits] using hp)

theorem State.Inv.faulted {s : State} {code : Byte} (hs : s.Inv) (hc : 1 ≤ code.toNat ∧ code.toNat ≤ 5) (info : U64) :
    (s.faulted code info).Inv :=
  (hs.setFault hc info).emit (by simp [responseFits])

theorem State.Inv.refusedHalted {s : State} (hs : s.Inv) : s.refusedHalted.Inv :=
  hs.emit rfl

theorem Engine.fresh_inv : Engine.fresh.Inv := rfl

/-- R29, R162: the engine of a midstate starts at a block boundary. -/
theorem Midstate.Inv.engine {m : Midstate} (hm : m.Inv) : Engine.Inv ⟨deser m.mb, [], m.mn⟩ := hm.symm

/-- R27, R163: the byte loop leaves as many bytes waiting as the count says. -/
theorem Engine.Inv.absorbed {e : Engine} (he : e.Inv) {bytes : List Byte} (hn : e.n.toNat + bytes.length ≤ 2 ^ 64 - 1) :
    (e.absorbed bytes).Inv := by
  have notFull : e.buf.length < 64 := he ▸ Nat.mod_lt _ (by decide)
  have hl : (e.absorbed bytes).buf.length = (e.buf.length + bytes.length) % 64 := length_absorb e.h e.buf bytes notFull
  rw [Engine.Inv, hl, he, Engine.toNat_absorbed_n hn, Nat.mod_add_mod]

/-- R32, R213: characters that fit are pairs of digits. -/
theorem Encoder.Inv.appended {cap : Cap} {x : Encoder} (hx : x.Inv cap) {bytes : List Byte}
    (hn : 2 * bytes.length ≤ cap.size - x.xbuf.length) (c : Case) : (x.appended bytes c).Inv cap := by
  obtain ⟨hpos, heven, hdigits⟩ := hx
  refine ⟨?_, ?_, ?_⟩
  · rw [Encoder.length_appended]
    omega
  · rw [Encoder.length_appended]
    omega
  · simp [Encoder.appended, hdigits, all_isHexDigit_hexPair]

theorem Encoder.Inv.nil (cap : Cap) : Encoder.Inv cap ⟨[]⟩ := ⟨Nat.zero_le _, rfl, rfl⟩

/-- R195: the midstate of a tag counts one block. -/
theorem tagMidstate_inv (tag : List Byte) : Midstate.Inv ⟨ser (tagState tag), 64⟩ :=
  show (64 : U64).toNat % 64 = 0 from rfl

/-- A command that completes leaves objects that meet the invariant. -/
theorem Completes.inv {i : Instr} {s u : State} {payload : List Byte} (hu : Completes s i u payload) (hs : s.Inv) :
    u.Inv := by
  have ⟨engineInv, midstateInv, encoderInv, _, _⟩ := hs
  cases hu with
  | sstat | ecanx | mparts | dread | xfull | xstr => exact hs
  | enew => exact hs.setEngine (by simpa using Engine.fresh_inv)
  | efromms hm => exact hs.setEngine (by simpa using (midstateInv _ hm).engine)
  | einput he hn => exact hs.setEngine (by simpa using (engineInv _ he).absorbed hn)
  | emid _ hn | mnew hn => exact hs.setMidstate (by simpa using hn)
  | efinal => exact (hs.setDigest _).setEngine (by simp)
  | mtag => exact hs.setMidstate (by simpa using tagMidstate_inv _)
  | xnew | xclear => exact hs.setEncoder (by simpa using .nil s.cap)
  | xputb hx hn => exact hs.setEncoder (by simpa using (encoderInv _ hx).appended (bytes := [_]) hn _)
  | xputn hx hn => exact hs.setEncoder (by simpa using (encoderInv _ hx).appended hn _)
  | xputd _ hx hn => exact hs.setEncoder (by simpa using (encoderInv _ hx).appended (by simpa using hn) _)

/-- The answer of a command that completes fits its packet: only XSTR's has no fixed length, and that is at most `CAP`. -/
theorem Completes.length_payload_le {i : Instr} {s u : State} {payload : List Byte} (hu : Completes s i u payload)
    (hs : s.Inv) : payload.length ≤ 65535 := by
  cases hu with
  | @xstr x hx =>
    obtain ⟨_, _, encoderInv, _, _⟩ := hs
    obtain ⟨hpos, _, _⟩ := encoderInv x hx
    obtain ⟨_, _, hcap⟩ := capSize_bounds s.cap
    omega
  | _ => simp

theorem faultCodes_bounds {o : Opcode} : ∀ code ∈ faultCodes o, 1 ≤ code.toNat ∧ code.toNat ≤ 5 := by
  cases o <;> decide

theorem exec_inv {i : Instr} {s t : State} (hs : s.Inv) (h : exec i s = .next t) : t.Inv := by
  cases exec_outcome h with
  | refused => exact hs.refusedHalted
  | faulted _ hc info => exact hs.faulted (faultCodes_bounds _ hc) info
  | boundary => exact hs.emit rfl
  | completed hu => exact (hu.inv hs).answered (hu.length_payload_le hs)

/-! ### The statements about the invariant -/

/-- Settles O16: the command's outcome keeps the invariant, and so do the refusal and the fault of an illegal header. -/
theorem stepKeepsInvariant : Obligations.StepKeepsInvariant := by
  unfold Obligations.StepKeepsInvariant
  intro s t hs h
  rcases step_next h with ⟨i, rest, _, hx⟩ | ⟨hdr, why, rest, _, ⟨_, rfl⟩ | ⟨_, rfl⟩⟩
  · exact exec_inv (hs.setCmd rest) hx
  · exact (hs.setCmd rest).refusedHalted
  · exact (hs.setCmd rest).faulted (by decide) _

theorem hostReset_inv (s : State) : (hostReset s).Inv := by
  simp [State.Inv, State.FaultInv]

theorem hostTake_inv {s t : State} {r : Response} (hs : s.Inv) (h : hostTake s = some (r, t)) : t.Inv := by
  obtain ⟨he, hm, hx, hf, hrs⟩ := hs
  unfold hostTake at h
  split at h
  case h_1 => cases h
  case h_2 r' rs hrsp =>
    cases h
    rw [hrsp, List.all_cons, Bool.and_eq_true] at hrs
    exact ⟨he, hm, hx, hf, hrs.2⟩

/-- Settles O17: reset leaves no object and no fault; sending and taking bytes touch the streams alone. -/
theorem resetMeetsInvariant : Obligations.ResetMeetsInvariant :=
  ⟨hostReset_reset ▸ hostReset_inv .reset, hostReset_inv, fun s bytes hs => hs.setCmd (s.cmd ++ bytes),
    fun _ _ _ => hostTake_inv⟩

/-! ### The response stream -/

theorem responseStream_of_rsp {s t : State} {r : Response} (h : t.rsp = s.rsp ++ [r]) :
    responseStream t = responseStream s ++ responseBytes r := by
  simp [responseStream, h]

theorem length_payload_of_responseFits {r : Response} (h : responseFits r = true) : r.payload.length ≤ 65535 := by
  unfold responseFits at h
  split at h <;> simp only [decide_eq_true_eq] at h <;> omega

theorem statusCode_mem (st : Status) : statusCode st ∈ ([0x00, 0x01, 0xFE, 0xFF] : List Byte) := by
  cases st <;> decide

/-- Settles O59: the one response that a step adds fits its packet, since the next state meets the invariant. -/
theorem responsesFitTheirPackets : Obligations.ResponsesFitTheirPackets := by
  unfold Obligations.ResponsesFitTheirPackets
  intro s t hs h
  obtain ⟨r, hr⟩ := step_rsp h
  have fits : responseFits r = true := by
    obtain ⟨_, _, _, _, hrs⟩ := stepKeepsInvariant s t hs h
    exact List.all_eq_true.mp hrs r (by simp [hr])
  have hl := length_payload_of_responseFits fits
  exact ⟨r, responseStream_of_rsp hr, Laws.HeaderNamesCommand.arg_length hl, statusCode_mem r.status⟩

end Sys2Proof.Machine
end

section
/-! The frame of a command per object, location and valid bit (spec/10_state.md R40, spec/43_hexenc.md R212 to R217): what a space reads
depends on its object alone, the encoder's write commands only append, and the statement about the frame. -/

namespace Sys2Proof.Machine

/-! ### Reading a space -/

theorem readByte_buf_congr {s t : State} (h : t.engine = s.engine) (a : Nat) : readByte t .buf a = readByte s .buf a := by
  simp only [readByte, spaceBytes, h]

theorem readByte_mb_congr {s t : State} (h : t.midstate = s.midstate) (a : Nat) :
    readByte t .mb a = readByte s .mb a := by
  simp only [readByte, spaceBytes, h]

theorem readByte_dg_congr {s t : State} (h : t.digest = s.digest) (a : Nat) : readByte t .dg a = readByte s .dg a := by
  simp only [readByte, spaceBytes, h]

theorem readByte_xbuf_congr {s t : State} (h : t.encoder = s.encoder) (a : Nat) :
    readByte t .xbuf a = readByte s .xbuf a := by
  simp only [readByte, spaceBytes, h]

theorem readByte_xbuf {s : State} {x : Encoder} (h : s.encoder = some x) (a : Nat) : readByte s .xbuf a = x.xbuf[a]? := by
  simp only [readByte, spaceBytes, h]

/-- Appending bytes changes no location below them or beyond them. -/
theorem readByte_xbuf_appended {s t : State} {x : Encoder} {bytes : List Byte} {c : Case} {a : Nat}
    (hs : s.encoder = some x) (ht : t.encoder = some (x.appended bytes c))
    (ha : a < encoderPos x ∨ encoderPos x + 2 * bytes.length ≤ a) : readByte t .xbuf a = readByte s .xbuf a := by
  rw [readByte_xbuf hs, readByte_xbuf ht]
  rcases ha with below | beyond
  · exact List.getElem?_append_left below
  · have unwritten : encoderPos x ≤ a := by omega
    rw [List.getElem?_eq_none unwritten, List.getElem?_eq_none (by rwa [Encoder.length_appended])]

/-! ### What single commands keep -/

/-- R213: XPUTB, XPUTN and XPUTD leave the encoder as it was or append the characters of some bytes to its text. -/
theorem exec_put_encoder {i : Instr} {s t : State} (hi : i.opcode ∈ [Opcode.xputb, .xputn, .xputd])
    (h : exec i s = .next t) : t.encoder = s.encoder ∨ ∃ x bytes c, s.encoder = some x ∧
      t.encoder = some (x.appended bytes c) ∧ charsWritten i = 2 * bytes.length := by
  cases exec_outcome h with
  | refused | faulted | boundary => exact .inl rfl
  | completed hu =>
    cases hu with
    | xputb hx | xputn hx | xputd _ hx => exact .inr ⟨_, _, _, hx, rfl, by simp [charsWritten]⟩
    | _ => simp [Instr.opcode] at hi

theorem exec_put_readByte {i : Instr} {s t : State} (hi : i.opcode ∈ [Opcode.xputb, .xputn, .xputd])
    (h : exec i s = .next t) {x : Encoder} (hx : s.encoder = some x) {a : Nat}
    (ha : a < encoderPos x ∨ encoderPos x + charsWritten i ≤ a) : readByte t .xbuf a = readByte s .xbuf a := by
  rcases exec_put_encoder hi h with kept | ⟨x', bytes, c, hx', ht, hl⟩
  · exact readByte_xbuf_congr kept a
  · obtain rfl : x = x' := Option.some.inj (hx.symm.trans hx')
    exact readByte_xbuf_appended hx ht (hl ▸ ha)

/-- R28: EINPUT neither creates nor consumes the engine. -/
theorem exec_einput_ev {bytes : List Byte} {s t : State} (h : exec (.einput bytes) s = .next t) : t.ev = s.ev := by
  cases exec_outcome h with
  | refused | faulted | boundary => rfl
  | completed hu =>
    cases hu with
    | einput he => simp [he]

/-- R33: the write commands and XCLEAR neither create nor consume the encoder. -/
theorem exec_xv {i : Instr} {s t : State} (hi : i.opcode ∈ [Opcode.xputb, .xputn, .xputd, .xclear])
    (h : exec i s = .next t) : t.xv = s.xv := by
  cases exec_outcome h with
  | refused | faulted | boundary => rfl
  | completed hu =>
    cases hu with
    | xputb hx | xputn hx | xputd _ hx | xclear hx => simp [hx]
    | _ => simp [Instr.opcode] at hi

/-! ### The frame of a command, whatever its outcome -/

/-- An object that the command's row does not mark W is unchanged (R40). -/
theorem exec_objects {i : Instr} {s t : State} (h : exec i s = .next t) :
    (writesEngine i = false → t.engine = s.engine) ∧ (writesMidstate i = false → t.midstate = s.midstate) ∧
    (writesDigest i = false → t.digest = s.digest) ∧ (writesEncoder i = false → t.encoder = s.encoder) := by
  cases exec_next h with
  | refused | faulted | boundary => exact ⟨fun _ => rfl, fun _ => rfl, fun _ => rfl, fun _ => rfl⟩
  | completed _ u hu payload => exact ⟨hu.engine, hu.midstate, hu.digest, hu.encoder⟩

/-- R36, R37: without a fault the fault registers stay. -/
theorem exec_fault_registers {i : Instr} {s t : State} (h : exec i s = .next t) (ht : t.halt = s.halt) :
    t.fcode = s.fcode ∧ t.finfo = s.finfo := by
  cases exec_next h with
  | refused | boundary => exact ⟨rfl, rfl⟩
  | faulted live => simp [live] at ht
  | completed _ u hu payload => exact ⟨hu.fcode, hu.finfo⟩

/-- R256, R258, R260: a command whose response is not OK changed no object. -/
theorem exec_response {i : Instr} {s t : State} (h : exec i s = .next t) :
    ∃ r, t.rsp = s.rsp ++ [r] ∧ (r.status ≠ .ok →
      t.engine = s.engine ∧ t.midstate = s.midstate ∧ t.digest = s.digest ∧ t.encoder = s.encoder) := by
  cases exec_next h with
  | refused | faulted | boundary => exact ⟨_, rfl, fun _ => ⟨rfl, rfl, rfl, rfl⟩⟩
  | completed _ u hu payload => exact ⟨⟨.ok, payload⟩, by simp [hu.rsp], fun notOk => absurd rfl notOk⟩

theorem exec_cap {i : Instr} {s t : State} (h : exec i s = .next t) : t.cap = s.cap := by
  cases exec_next h with
  | refused | faulted | boundary => rfl
  | completed _ u hu payload => exact hu.cap

/-- Settles O19: the frame of the four objects, read location by location, with what single commands keep in an object they write. -/
theorem commandsWriteOnlyTheirRow : Obligations.CommandsWriteOnlyTheirRow := by
  unfold Obligations.CommandsWriteOnlyTheirRow
  intro i s t h
  obtain ⟨engine, midstate, digest, encoder⟩ := exec_objects h
  exact ⟨fun w => ⟨engine w, readByte_buf_congr (engine w)⟩, fun w => ⟨midstate w, readByte_mb_congr (midstate w)⟩,
    fun w => ⟨digest w, readByte_dg_congr (digest w)⟩, fun w => ⟨encoder w, readByte_xbuf_congr (encoder w)⟩,
    fun hi x hx a => exec_put_readByte hi h hx, fun bytes hi => exec_einput_ev (hi ▸ h), fun hi => exec_xv hi h,
    exec_fault_registers h, exec_cap h, exec_cmd h, exec_response h⟩

end Sys2Proof.Machine
end

section
/-! The statements about steps (spec/30_encoding.md R95, spec/60_exceptions.md R250, spec/70_reset_and_hazards.md R306): when the
block waits, what a step executes, that every command answers, which commands can fault, and that the capacity stays. -/

namespace Sys2Proof.Machine

/-! ### Waiting for a packet -/

/-- R95: the first packet is incomplete while its header is, or while its payload is. -/
theorem decode_incomplete_iff (bs : List Byte) : decode bs = .incomplete ↔
    bs.length < 4 ∨ ∃ (hdr : Word) (body : List Byte), bs = bytesBe32 hdr ++ body ∧ body.length < paylen hdr := by
  constructor
  · intro h
    by_cases short : bs.length < 4
    · exact .inl short
    · obtain ⟨hdr, body, rfl⟩ := exists_header_body (Nat.not_lt.mp short)
      rw [decode_header_append, decodeBody] at h
      split at h
      case isTrue hl => exact .inr ⟨hdr, body, rfl, hl⟩
      case isFalse => cases hc : checkHeader hdr <;> simp [hc] at h
  · rintro (short | ⟨hdr, body, rfl, hl⟩)
    · exact decode_short short
    · exact decode_partial hl

/-- R306: a step has no next state exactly while there is no whole packet. -/
theorem step_waits_iff (s : State) : step s = .fault .awaitingPacket ↔ decode s.cmd = .incomplete := by
  refine ⟨fun waits => ?_, step_incomplete⟩
  cases hd : decode s.cmd with
  | incomplete => rfl
  | packet i rest =>
    obtain ⟨t, ht, _⟩ := exec_ends i { s with cmd := rest }
    rw [step_packet hd, ht] at waits
    cases waits
  | illegal hdr why rest =>
    cases hs : s.halt with
    | true =>
      rw [step_illegal_halted hs hd] at waits
      cases waits
    | false =>
      rw [step_illegal_live hs hd] at waits
      cases waits

/-- Settles O5: a step waits exactly where the decoder finds the first packet incomplete. -/
theorem blockWaitsForWholePacket : Obligations.BlockWaitsForWholePacket :=
  fun s => (step_waits_iff s).trans (decode_incomplete_iff s.cmd)

/-- Settles O6: the decoder, run on the six packets. -/
theorem sampleWordsDecode : Obligations.SampleWordsDecode :=
  ⟨by decide, by decide, by decide, by decide, by decide, by decide⟩

/-! ### Executing a command -/

/-- Settles O7: the step's equation where the packet is a command. -/
theorem stepExecutesDecodedCommand : Obligations.StepExecutesDecodedCommand :=
  fun _ _ _ => step_packet

/-- Settles O11: each of the ways a command can end is a next state with one response more. -/
theorem everyCommandAnswersNext : Obligations.EveryCommandAnswersNext := by
  unfold Obligations.EveryCommandAnswersNext
  intro i s
  obtain ⟨t, ht, _⟩ := exec_ends i s
  obtain ⟨r, hr⟩ := exec_rsp ht
  exact ⟨t, r, ht, hr⟩

/-! ### Fault codes -/

theorem Completes.halt {i : Instr} {s u : State} {payload : List Byte} (hu : Completes s i u payload) :
    u.halt = s.halt := by
  cases hu <;> rfl

/-- R250, R252: a command that halts a live block wrote one of its own fault codes. -/
theorem fcode_mem_faultCodes {i : Instr} {s t : State} (hs : s.halt = false) (h : exec i s = .next t)
    (ht : t.halt = true) : t.fcode ∈ faultCodes i.opcode := by
  cases exec_outcome h with
  | refused halted => simp [hs] at halted
  | faulted _ hc => exact hc
  | boundary => simp [hs] at ht
  | completed hu => simp [hu.halt, hs] at ht

/-- Settles O13: a command that halts wrote one of its codes, and those are listed per opcode. -/
theorem faultsComeFromTheirCommands : Obligations.FaultsComeFromTheirCommands := by
  unfold Obligations.FaultsComeFromTheirCommands
  intro i s t hs h
  have fault := fcode_mem_faultCodes hs h
  have noCode : ∀ o ∈ [Opcode.sstat, .enew, .mtag, .xnew], faultCodes o = [] := by decide
  have objectOnly : ∀ o ∈ [Opcode.efromms, .mparts, .dread, .ecanx, .emid, .xfull, .xstr, .xclear],
      ∀ code ∈ faultCodes o, code = 2 := by decide
  have objectOrLength : ∀ o ∈ [Opcode.einput, .efinal], ∀ code ∈ faultCodes o, code = 2 ∨ code = 5 := by decide
  have alignment : ∀ code ∈ faultCodes .mnew, code = 3 := by decide
  have objectOrCapacity : ∀ o ∈ [Opcode.xputb, .xputn, .xputd], ∀ code ∈ faultCodes o, code = 2 ∨ code = 4 := by decide
  refine ⟨fun hi => ?_, fun hi ht => objectOnly _ hi _ (fault ht), fun hi ht => objectOrLength _ hi _ (fault ht),
    fun hi ht => alignment _ (hi ▸ fault ht), fun hi ht => objectOrCapacity _ hi _ (fault ht)⟩
  rw [noCode _ hi] at fault
  simpa using fault

/-! ### The capacity -/

theorem step_cap {s t : State} (h : step s = .next t) : t.cap = s.cap := by
  rcases step_next h with ⟨i, rest, _, hx⟩ | ⟨hdr, why, rest, _, ⟨_, rfl⟩ | ⟨_, rfl⟩⟩
  · exact exec_cap (s := { s with cmd := rest }) hx
  · rfl
  · rfl

/-- Settles O18: no step writes the capacity, and its type bounds it. -/
theorem capacityIsFixed : Obligations.CapacityIsFixed :=
  fun _ t h => ⟨step_cap h, capSize_bounds t.cap⟩

end Sys2Proof.Machine
end

section
/-! Contexts that a command does not read or write (spec/10_state.md section 11): a change of one object's value that goes through every
operation of a command goes through the command. The statements about the encoder and the engine. -/

namespace Sys2Proof.Machine

/-! ### Changes that go through -/

/-- `r'` is `r` with its next state changed by `f`. -/
abbrev ChangedBy (f : State → State) (r r' : Result) : Prop := nextState r' = (nextState r).map f

/-- A change of the state that neither the halted check nor the answers see. -/
structure Unseen (f : State → State) : Prop where
  halt (s : State) : (f s).halt = s.halt
  emit (r : Response) (s : State) : emit r (f s) = f (emit r s)
  setFault (code : Byte) (info : U64) (s : State) : setFault code info (f s) = f (setFault code info s)

theorem unseen_setEncoder (x : Option Encoder) : Unseen (setEncoder x) := ⟨fun _ => rfl, fun _ _ => rfl, fun _ _ _ => rfl⟩

theorem unseen_setEngine (e : Option Engine) : Unseen (setEngine e) := ⟨fun _ => rfl, fun _ _ => rfl, fun _ _ _ => rfl⟩

section
variable {f : State → State} (hf : Unseen f) {s : State}
include hf

theorem changedBy_respondOk {u u' : State} (hu : u' = f u) (payload : List Byte) :
    ChangedBy f (respondOk payload u) (respondOk payload u') := by
  subst hu
  exact congrArg some (hf.emit _ u)

theorem changedBy_returnBoundary (info : U64) : ChangedBy f (returnBoundary info s) (returnBoundary info (f s)) :=
  congrArg some (hf.emit _ s)

theorem changedBy_raiseFault (code : FaultCode) (info : U64) :
    ChangedBy f (raiseFault code info s) (raiseFault code info (f s)) := by
  simp only [ChangedBy, raiseFault, nextState, Option.map_some, hf.emit, hf.setFault]

theorem changedBy_unlessHalted {k k' : Result} (hk : ChangedBy f k k') :
    ChangedBy f (unlessHalted s k) (unlessHalted (f s) k') := by
  cases hs : s.halt with
  | true =>
    rw [unlessHalted, unlessHalted, hf.halt, hs]
    exact congrArg some (hf.emit _ s)
  | false => rwa [unlessHalted_live hs, unlessHalted_live ((hf.halt s).trans hs)]

theorem changedBy_withEngine (same : (f s).engine = s.engine) {k k' : Engine → Result}
    (hk : ∀ e, ChangedBy f (k e) (k' e)) : ChangedBy f (withEngine s k) (withEngine (f s) k') := by
  cases he : s.engine with
  | none => simpa only [withEngine, same, he] using changedBy_raiseFault hf ..
  | some e => simpa only [withEngine, same, he] using hk e

theorem changedBy_withMidstate (same : (f s).midstate = s.midstate) {k k' : Midstate → Result}
    (hk : ∀ m, ChangedBy f (k m) (k' m)) : ChangedBy f (withMidstate s k) (withMidstate (f s) k') := by
  cases hm : s.midstate with
  | none => simpa only [withMidstate, same, hm] using changedBy_raiseFault hf ..
  | some m => simpa only [withMidstate, same, hm] using hk m

theorem changedBy_withDigest (same : (f s).digest = s.digest) {k k' : Bytes32 → Result}
    (hk : ∀ d, ChangedBy f (k d) (k' d)) : ChangedBy f (withDigest s k) (withDigest (f s) k') := by
  cases hd : s.digest with
  | none => simpa only [withDigest, same, hd] using changedBy_raiseFault hf ..
  | some d => simpa only [withDigest, same, hd] using hk d

theorem changedBy_withEncoder (same : (f s).encoder = s.encoder) {k k' : Encoder → Result}
    (hk : ∀ x, ChangedBy f (k x) (k' x)) : ChangedBy f (withEncoder s k) (withEncoder (f s) k') := by
  cases hx : s.encoder with
  | none => simpa only [withEncoder, same, hx] using changedBy_raiseFault hf ..
  | some x => simpa only [withEncoder, same, hx] using hk x

end

theorem changedBy_ite {f : State → State} {c : Prop} [Decidable c] {a b a' b' : Result} (ha : ChangedBy f a a')
    (hb : ChangedBy f b b') : ChangedBy f (if c then a else b) (if c then a' else b') := by
  split
  · exact ha
  · exact hb

/-- `PUT` reads the capacity and the encoder it is given, and no engine. -/
theorem changedBy_put (e : Option Engine) (x : Encoder) (bytes : List Byte) (c : Case) (s : State) :
    ChangedBy (setEngine e) (put x bytes c s) (put x bytes c (setEngine e s)) :=
  have hf := unseen_setEngine e
  changedBy_ite (changedBy_raiseFault hf _ _) (changedBy_respondOk hf rfl _)

/-! ### The two contexts -/

/-- Settles O20: of the operations that a command with no mark for the encoder is made of, none sees or writes the encoder. -/
theorem encoderIsIndependent : Obligations.EncoderIsIndependent := by
  unfold Obligations.EncoderIsIndependent
  intro i s x ignores writes
  have hf := unseen_setEncoder x
  show ChangedBy (setEncoder x) (exec i s) (exec i (setEncoder x s))
  cases i with
  | enew | mtag => exact changedBy_unlessHalted hf (changedBy_respondOk hf rfl _)
  | efromms | mparts =>
    exact changedBy_unlessHalted hf (changedBy_withMidstate hf rfl fun m => changedBy_respondOk hf rfl _)
  | dread => exact changedBy_unlessHalted hf (changedBy_withDigest hf rfl fun d => changedBy_respondOk hf rfl _)
  | ecanx => exact changedBy_unlessHalted hf (changedBy_withEngine hf rfl fun e => changedBy_respondOk hf rfl _)
  | einput | efinal =>
    exact changedBy_unlessHalted hf (changedBy_withEngine hf rfl fun e =>
      changedBy_ite (changedBy_raiseFault hf _ _) (changedBy_respondOk hf rfl _))
  | emid =>
    exact changedBy_unlessHalted hf (changedBy_withEngine hf rfl fun e =>
      changedBy_ite (changedBy_respondOk hf rfl _) (changedBy_returnBoundary hf _))
  | mnew =>
    exact changedBy_unlessHalted hf (changedBy_ite (changedBy_raiseFault hf _ _) (changedBy_respondOk hf rfl _))
  | sstat | xputb | xputn | xfull | xstr | xclear | xputd => cases ignores
  | xnew => cases writes

/-- Settles O21: the same for the engine; MTAG's hashing is a function of the tag. -/
theorem engineIsIndependent : Obligations.EngineIsIndependent := by
  unfold Obligations.EngineIsIndependent
  intro i s e ignores writes
  have hf := unseen_setEngine e
  show ChangedBy (setEngine e) (exec i s) (exec i (setEngine e s))
  cases i with
  | mtag | xnew => exact changedBy_unlessHalted hf (changedBy_respondOk hf rfl _)
  | mparts => exact changedBy_unlessHalted hf (changedBy_withMidstate hf rfl fun m => changedBy_respondOk hf rfl _)
  | dread => exact changedBy_unlessHalted hf (changedBy_withDigest hf rfl fun d => changedBy_respondOk hf rfl _)
  | mnew =>
    exact changedBy_unlessHalted hf (changedBy_ite (changedBy_raiseFault hf _ _) (changedBy_respondOk hf rfl _))
  | xfull | xstr | xclear =>
    exact changedBy_unlessHalted hf (changedBy_withEncoder hf rfl fun x => changedBy_respondOk hf rfl _)
  | xputb | xputn =>
    exact changedBy_unlessHalted hf (changedBy_withEncoder hf rfl fun x => changedBy_put e x _ _ s)
  | xputd =>
    exact changedBy_unlessHalted hf (changedBy_withDigest hf rfl fun d =>
      changedBy_withEncoder hf rfl fun x => changedBy_put e x _ _ s)
  | sstat | einput | ecanx | emid | efinal => cases ignores
  | enew | efromms => cases writes

end Sys2Proof.Machine
end

section
/-! The ROMs as roots of the first primes (spec/20_memory.md R62, log entry 9): which primes those are, and the roots they have. -/

namespace Sys2Proof.Machine

/-! ### The first primes -/

/-- The numbers below `n` that satisfy `p`, in order, are the first ones that do. -/
theorem nth_of_getElem?_filter_range {p : Nat → Prop} [DecidablePred p] {n t x : Nat}
    (h : ((List.range n).filter p)[t]? = some x) : Nat.nth p t = x := by
  induction n with
  | zero => simp at h
  | succ n ih =>
    rw [List.range_succ, List.filter_append, List.getElem?_append] at h
    split at h
    case isTrue => exact ih h
    case isFalse beyond =>
      by_cases hn : p n
      · obtain ⟨last, rfl⟩ : t - ((List.range n).filter p).length = 0 ∧ n = x := by
          simpa [hn, List.getElem?_singleton] using h
        have ht : t = Nat.count p n := by
          rw [Nat.count, List.countP_eq_length_filter]
          omega
        rw [ht, Nat.nth_count hn]
      · simp [hn] at h

/-- The first 64 primes. -/
def firstPrimes : List Nat :=
  [2, 3, 5, 7, 11, 13, 17, 19, 23, 29, 31, 37, 41, 43, 47, 53, 59, 61, 67, 71, 73, 79, 83, 89, 97, 101, 103, 107, 109, 113, 127,
   131, 137, 139, 149, 151, 157, 163, 167, 173, 179, 181, 191, 193, 197, 199, 211, 223, 227, 229, 233, 239, 241, 251, 257, 263,
   269, 271, 277, 281, 283, 293, 307, 311]

/-- Primality by the least factor, which is quicker to compute than by all divisors. -/
theorem filter_prime_range : (List.range 312).filter Nat.Prime = firstPrimes := by
  have byMinFac : (List.range 312).filter (fun n => 2 ≤ n ∧ n.minFac = n) = firstPrimes := by decide +kernel
  simpa only [Nat.prime_def_minFac] using byMinFac

theorem nth_prime {t : Nat} (ht : t < 64) : Nat.nth Nat.Prime t = firstPrimes.getD t 0 := by
  have hl : t < firstPrimes.length := ht
  apply nth_of_getElem?_filter_range (n := 312)
  rw [filter_prime_range, List.getElem?_eq_getElem hl, List.getD_eq_getElem _ _ hl]

/-! ### The roots -/

/-- `m` is the integer part of the `k`-th root of `a`. -/
abbrev IsRootFloor (k m a : Nat) : Prop := m ^ k ≤ a ∧ a < (m + 1) ^ k

/-- Each word of `IV` stands after the integer part of its square root, which is below 5. -/
theorem ivRom_roots : ∀ i : Fin 8, ∃ c < 5,
    IsRootFloor 2 (c * 2 ^ 32 + ivRom[i].toNat) (firstPrimes.getD i 0 * 2 ^ 64) := by
  decide +kernel

/-- Each word of `K` stands after the integer part of its cube root, which is below 7. -/
theorem kRom_roots : ∀ t < 64, ∃ c < 7,
    IsRootFloor 3 (c * 2 ^ 32 + (kRom.getD t 0).toNat) (firstPrimes.getD t 0 * 2 ^ 96) := by
  decide +kernel

/-- The integer part of a root stands above the word's 32 bits. -/
theorem word_eq_mod (c : Nat) (w : Word) : w.toNat = (c * 2 ^ 32 + w.toNat) % 2 ^ 32 := by
  rw [Nat.mul_add_mod_self_right, Nat.mod_eq_of_lt w.isLt]

/-- Settles O60: the words are the tables', and after the integer part of the root of their prime they are the root's first 32
fraction bits. -/
theorem romsHoldPrimeRoots : Obligations.RomsHoldPrimeRoots := by
  unfold Obligations.RomsHoldPrimeRoots
  refine ⟨rfl, rfl, fun i => ?_, rfl, fun t ht => ?_⟩
  · obtain ⟨c, _, lower, upper⟩ := ivRom_roots i
    rw [nth_prime (by omega)]
    exact ⟨_, lower, upper, word_eq_mod c _⟩
  · obtain ⟨c, _, lower, upper⟩ := kRom_roots t ht
    rw [nth_prime ht]
    exact ⟨_, lower, upper, word_eq_mod c _⟩

end Sys2Proof.Machine
end
